-- ==== Sys2Proof/Word.lean ====
section
/-! DEFINITION. The word types of the CHIP-8 core and nothing else: a byte, a 16-bit word, a register number.
Bit-field and byte-order helpers stand in Decode.lean, arithmetic with flags in Machine/Flags.lean. -/

namespace Sys2Proof

/-- A byte: the width of `V[i]`, `DT`, `ST`, an immediate `kk` and a memory cell (R6, R21, R26, R50). -/
abbrev Byte := BitVec 8

/-- A 16-bit word: the width of `I`, `PC`, a stack entry and an instruction word (R6, R70). -/
abbrev Word := BitVec 16

/-- A 12-bit immediate address `nnn` (R71). -/
abbrev Addr12 := BitVec 12

/-- A register number; each of the sixteen values names a register and none is illegal (R21, R73). -/
abbrev Reg := Fin 16

/-- The number of VF, `V[15]` (R22). -/
abbrev regF : Reg := 15

end Sys2Proof
end

