-- ==== Sys2Proof/Syntax.lean ====
section
/-! DEFINITION. The 34 instructions (R1, R74): one constructor per row of spec/opcode_table.json, in the table's order, named
after the row's mnemonic. `x`, `y` are register numbers, `kk` a byte, `nnn` a 12-bit address, `n` a count 0 to 15 (R71, R73). -/

namespace Sys2Proof

inductive Instr where
  /-- `00E0` CLS, R150 -/
  | cls
  /-- `00EE` RET, R90 -/
  | ret
  /-- `1nnn` JP nnn, R91 -/
  | jpNnn (nnn : Addr12)
  /-- `2nnn` CALL nnn, R92 -/
  | callNnn (nnn : Addr12)
  /-- `3xkk` SE Vx, kk, R93 -/
  | seVxKk (x : Reg) (kk : Byte)
  /-- `4xkk` SNE Vx, kk, R94 -/
  | sneVxKk (x : Reg) (kk : Byte)
  /-- `5xy0` SE Vx, Vy, R95 -/
  | seVxVy (x y : Reg)
  /-- `6xkk` LD Vx, kk, R110 -/
  | ldVxKk (x : Reg) (kk : Byte)
  /-- `7xkk` ADD Vx, kk, R111 -/
  | addVxKk (x : Reg) (kk : Byte)
  /-- `8xy0` LD Vx, Vy, R112 -/
  | ldVxVy (x y : Reg)
  /-- `8xy1` OR Vx, Vy, R113 -/
  | orVxVy (x y : Reg)
  /-- `8xy2` AND Vx, Vy, R114 -/
  | andVxVy (x y : Reg)
  /-- `8xy3` XOR Vx, Vy, R115 -/
  | xorVxVy (x y : Reg)
  /-- `8xy4` ADD Vx, Vy, R116 -/
  | addVxVy (x y : Reg)
  /-- `8xy5` SUB Vx, Vy, R117 -/
  | subVxVy (x y : Reg)
  /-- `8xy6` SHR Vx, Vy, R118 -/
  | shrVxVy (x y : Reg)
  /-- `8xy7` SUBN Vx, Vy, R119 -/
  | subnVxVy (x y : Reg)
  /-- `8xyE` SHL Vx, Vy, R120 -/
  | shlVxVy (x y : Reg)
  /-- `9xy0` SNE Vx, Vy, R96 -/
  | sneVxVy (x y : Reg)
  /-- `Annn` LD I, nnn, R130 -/
  | ldINnn (nnn : Addr12)
  /-- `Bnnn` JP V0, nnn, R97 -/
  | jpV0Nnn (nnn : Addr12)
  /-- `Cxkk` RND Vx, kk, R121 -/
  | rndVxKk (x : Reg) (kk : Byte)
  /-- `Dxyn` DRW Vx, Vy, n, R151 -/
  | drwVxVyN (x y : Reg) (n : Fin 16)
  /-- `Ex9E` SKP Vx, R160 -/
  | skpVx (x : Reg)
  /-- `ExA1` SKNP Vx, R161 -/
  | sknpVx (x : Reg)
  /-- `Fx07` LD Vx, DT, R165 -/
  | ldVxDt (x : Reg)
  /-- `Fx0A` LD Vx, K, R162 -/
  | ldVxK (x : Reg)
  /-- `Fx15` LD DT, Vx, R166 -/
  | ldDtVx (x : Reg)
  /-- `Fx18` LD ST, Vx, R167 -/
  | ldStVx (x : Reg)
  /-- `Fx1E` ADD I, Vx, R131 -/
  | addIVx (x : Reg)
  /-- `Fx29` LD F, Vx, R132 -/
  | ldFVx (x : Reg)
  /-- `Fx33` LD B, Vx, R133 -/
  | ldBVx (x : Reg)
  /-- `Fx55` LD [I], Vx, R134 -/
  | ldMemVx (x : Reg)
  /-- `Fx65` LD Vx, [I], R135 -/
  | ldVxMem (x : Reg)
deriving DecidableEq, Repr

end Sys2Proof
end

