-- ==== Sys2Proof/WellFormed.lean ====
section
/-! DEFINITION. Which instruction words exist: the opcode map of R74 as data, and the six families of undefined words of R75 as
checks of their own. A term of `Instr` needs no check: its fields have exactly the widths of R71, every register number is
legal (R21, R73) and every immediate value is legal (R73), so every term of `Instr` is well formed by its type. What can be ill
formed is a WORD, and `Word.wellFormed` refuses it. -/

namespace Sys2Proof

/-- One row of R74: a word selects it when `(w & mask) = pattern`. -/
structure OpcodeRow where
  mask    : Word
  pattern : Word
deriving DecidableEq, Repr

/-- "A word selects an instruction when `(w & mask) = match`" (R74). -/
def OpcodeRow.selects (r : OpcodeRow) (w : Word) : Bool := w &&& r.mask == r.pattern

/-- The 34 rows of R74, in the table's order. -/
def opcodeMap : List OpcodeRow :=
  [⟨0xFFFF, 0x00E0⟩, ⟨0xFFFF, 0x00EE⟩, ⟨0xF000, 0x1000⟩, ⟨0xF000, 0x2000⟩, ⟨0xF000, 0x3000⟩, ⟨0xF000, 0x4000⟩,
   ⟨0xF00F, 0x5000⟩, ⟨0xF000, 0x6000⟩, ⟨0xF000, 0x7000⟩] ++
  [⟨0xF00F, 0x8000⟩, ⟨0xF00F, 0x8001⟩, ⟨0xF00F, 0x8002⟩, ⟨0xF00F, 0x8003⟩, ⟨0xF00F, 0x8004⟩, ⟨0xF00F, 0x8005⟩,
   ⟨0xF00F, 0x8006⟩, ⟨0xF00F, 0x8007⟩, ⟨0xF00F, 0x800E⟩] ++
  [⟨0xF00F, 0x9000⟩, ⟨0xF000, 0xA000⟩, ⟨0xF000, 0xB000⟩, ⟨0xF000, 0xC000⟩, ⟨0xF000, 0xD000⟩, ⟨0xF0FF, 0xE09E⟩,
   ⟨0xF0FF, 0xE0A1⟩] ++
  [⟨0xF0FF, 0xF007⟩, ⟨0xF0FF, 0xF00A⟩, ⟨0xF0FF, 0xF015⟩, ⟨0xF0FF, 0xF018⟩, ⟨0xF0FF, 0xF01E⟩, ⟨0xF0FF, 0xF029⟩,
   ⟨0xF0FF, 0xF033⟩, ⟨0xF0FF, 0xF055⟩, ⟨0xF0FF, 0xF065⟩]

/-- The word is one of the 34 (R74); every other word is unrecognised (R75, R76). -/
def Word.wellFormed (w : Word) : Bool := opcodeMap.any (·.selects w)

/-- Family `0x0`: "every `0nnn` except `00E0` and `00EE`" (R75). -/
def Word.undefined0 (w : Word) : Bool := w >>> 12 == 0x0 && w != 0x00E0 && w != 0x00EE

/-- Family `0x5`: "`5xyN` with `N != 0`" (R75). -/
def Word.undefined5 (w : Word) : Bool := w >>> 12 == 0x5 && w &&& 0x000F != 0

/-- Family `0x8`: "`8xyN` with `N` in {8, 9, A, B, C, D, F}" (R75). -/
def Word.undefined8 (w : Word) : Bool :=
  w >>> 12 == 0x8 && [0x8, 0x9, 0xA, 0xB, 0xC, 0xD, 0xF].contains (w &&& 0x000F)

/-- Family `0x9`: "`9xyN` with `N != 0`" (R75). -/
def Word.undefined9 (w : Word) : Bool := w >>> 12 == 0x9 && w &&& 0x000F != 0

/-- Family `0xE`: "`Exkk` with `kk` not in {`9E`, `A1`}" (R75). -/
def Word.undefinedE (w : Word) : Bool := w >>> 12 == 0xE && !([0x9E, 0xA1].contains (w &&& 0x00FF))

/-- Family `0xF`: "`Fxkk` with `kk` not in {`07`, `0A`, `15`, `18`, `1E`, `29`, `33`, `55`, `65`}" (R75). -/
def Word.undefinedF (w : Word) : Bool :=
  w >>> 12 == 0xF && !([0x07, 0x0A, 0x15, 0x18, 0x1E, 0x29, 0x33, 0x55, 0x65].contains (w &&& 0x00FF))

/-- The word is in one of the six families of undefined words (R75). -/
def Word.undefined (w : Word) : Bool :=
  w.undefined0 || w.undefined5 || w.undefined8 || w.undefined9 || w.undefinedE || w.undefinedF

end Sys2Proof
end

