-- ==== Sys2Proof/Decode.lean ====
section
/-! DEFINITION. From bytes to an instruction and back: byte order (R54, R70), fields (R71), the two-level decoder (R74, R75), the
encoder (R72) and the host's `decodeTableWord`. -/

namespace Sys2Proof

/-! ## Byte order and fields -/

/-- "combine big-endian into a 16-bit instruction word": the byte at the lower address is the high byte (R54, R70). -/
def joinBytes (hi lo : Byte) : Word := hi ++ lo

/-- The first byte of a word in memory, `w[15:8]` (R71). -/
def highByte (w : Word) : Byte := w.extractLsb' 8 8

/-- The second byte of a word in memory, `w[7:0]` (R71). -/
def lowByte (w : Word) : Byte := w.extractLsb' 0 8

/-- `op = w[15:12]`: the family (R71). -/
def opField (w : Word) : BitVec 4 := w.extractLsb' 12 4

/-- `x = w[11:8]` (R71). -/
def xField (w : Word) : Reg := (w.extractLsb' 8 4).toFin

/-- `y = w[7:4]` (R71). -/
def yField (w : Word) : Reg := (w.extractLsb' 4 4).toFin

/-- `n = w[3:0]`: a count in `Dxyn`, a sub-operation selector in families 5, 8 and 9 (R71). -/
def nField (w : Word) : BitVec 4 := w.extractLsb' 0 4

/-- `kk = w[7:0]`: an immediate byte, a sub-operation selector in families E and F (R71). -/
def kkField (w : Word) : Byte := w.extractLsb' 0 8

/-- `nnn = w[11:0]` (R71). -/
def nnnField (w : Word) : Addr12 := w.extractLsb' 0 12

/-! ## Decode -/

/-- Why bytes are not an instruction. -/
inductive DecodeReject where
  /-- fewer than the two bytes that every instruction has (R70); it cannot arise in a fetch, which always reads two -/
  | truncated
  /-- the word matches none of the 34 patterns (R75) -/
  | undefinedWord (w : Word)
deriving DecidableEq, Repr

/-- Family `0x0` "compares the whole word with `00E0` and `00EE`" (R74). -/
def decodeFamily0 (w : Word) : Except DecodeReject Instr :=
  if w = 0x00E0 then .ok .cls else if w = 0x00EE then .ok .ret else .error (.undefinedWord w)

/-- Families `0x5` and `0x9` "have a single member each and require `n = 0`" (R74, R75). -/
def decodeSkipVxVy (w : Word) (i : Reg → Reg → Instr) : Except DecodeReject Instr :=
  if nField w = 0x0 then .ok (i (xField w) (yField w)) else .error (.undefinedWord w)

/-- "family `0x8` dispatches on `n`" (R74). -/
def decodeFamily8 (w : Word) : Except DecodeReject Instr :=
  match nField w with
  | 0x0#4 => .ok (.ldVxVy (xField w) (yField w))
  | 0x1#4 => .ok (.orVxVy (xField w) (yField w))
  | 0x2#4 => .ok (.andVxVy (xField w) (yField w))
  | 0x3#4 => .ok (.xorVxVy (xField w) (yField w))
  | 0x4#4 => .ok (.addVxVy (xField w) (yField w))
  | 0x5#4 => .ok (.subVxVy (xField w) (yField w))
  | 0x6#4 => .ok (.shrVxVy (xField w) (yField w))
  | 0x7#4 => .ok (.subnVxVy (xField w) (yField w))
  | 0xE#4 => .ok (.shlVxVy (xField w) (yField w))
  | _ => .error (.undefinedWord w)

/-- "families `0xE` and `0xF` dispatch on `kk`" (R74): family `0xE`. -/
def decodeFamilyE (w : Word) : Except DecodeReject Instr :=
  match kkField w with
  | 0x9E#8 => .ok (.skpVx (xField w))
  | 0xA1#8 => .ok (.sknpVx (xField w))
  | _ => .error (.undefinedWord w)

/-- "families `0xE` and `0xF` dispatch on `kk`" (R74): family `0xF`. -/
def decodeFamilyF (w : Word) : Except DecodeReject Instr :=
  match kkField w with
  | 0x07#8 => .ok (.ldVxDt (xField w))
  | 0x0A#8 => .ok (.ldVxK (xField w))
  | 0x15#8 => .ok (.ldDtVx (xField w))
  | 0x18#8 => .ok (.ldStVx (xField w))
  | 0x1E#8 => .ok (.addIVx (xField w))
  | 0x29#8 => .ok (.ldFVx (xField w))
  | 0x33#8 => .ok (.ldBVx (xField w))
  | 0x55#8 => .ok (.ldMemVx (xField w))
  | 0x65#8 => .ok (.ldVxMem (xField w))
  | _ => .error (.undefinedWord w)

/-- The decoder: "dispatch on the high nibble of the first byte into one of sixteen instruction families" (R74). A word of none of
the 34 patterns is rejected by name (R75); how strictly families 0, 5 and 9 are matched is the spec's D4, log 10. -/
def decode (w : Word) : Except DecodeReject Instr :=
  match opField w with
  | 0x0#4 => decodeFamily0 w
  | 0x1#4 => .ok (.jpNnn (nnnField w))
  | 0x2#4 => .ok (.callNnn (nnnField w))
  | 0x3#4 => .ok (.seVxKk (xField w) (kkField w))
  | 0x4#4 => .ok (.sneVxKk (xField w) (kkField w))
  | 0x5#4 => decodeSkipVxVy w .seVxVy
  | 0x6#4 => .ok (.ldVxKk (xField w) (kkField w))
  | 0x7#4 => .ok (.addVxKk (xField w) (kkField w))
  | 0x8#4 => decodeFamily8 w
  | 0x9#4 => decodeSkipVxVy w .sneVxVy
  | 0xA#4 => .ok (.ldINnn (nnnField w))
  | 0xB#4 => .ok (.jpV0Nnn (nnnField w))
  | 0xC#4 => .ok (.rndVxKk (xField w) (kkField w))
  | 0xD#4 => .ok (.drwVxVyN (xField w) (yField w) (nField w).toFin)
  | 0xE#4 => decodeFamilyE w
  | _ => decodeFamilyF w

/-- Decode the instruction at the head of a list of bytes, the first byte the high one, and answer it with the bytes after it;
total on any bytes (R70). -/
def decodeBytes : List Byte → Except DecodeReject (Instr × List Byte)
  | hi :: lo :: rest =>
    match decode (joinBytes hi lo) with
    | .ok i => .ok (i, rest)
    | .error e => .error e
  | _ => .error .truncated

/-! ## Encode -/

/-- A register number as the four bits of an `x` or `y` field (R71). -/
def regNibble (r : Reg) : BitVec 4 := BitVec.ofFin r

/-- Format `NNN` (R72). -/
def encNnn (op : BitVec 4) (nnn : Addr12) : Word := op ++ nnn

/-- Format `XKK` (R72); format `X` is the same with a fixed `kk`. -/
def encXkk (op : BitVec 4) (x : Reg) (kk : Byte) : Word := op ++ regNibble x ++ kk

/-- Format `XYN` (R72); format `XY` is the same with a fixed `n`. -/
def encXyn (op : BitVec 4) (x y : Reg) (n : BitVec 4) : Word := op ++ regNibble x ++ regNibble y ++ n

/-- The word of an instruction: the patterns of R74 in the formats of R72. -/
def encode : Instr → Word
  | .cls => 0x00E0
  | .ret => 0x00EE
  | .jpNnn nnn => encNnn 0x1 nnn
  | .callNnn nnn => encNnn 0x2 nnn
  | .seVxKk x kk => encXkk 0x3 x kk
  | .sneVxKk x kk => encXkk 0x4 x kk
  | .seVxVy x y => encXyn 0x5 x y 0x0
  | .ldVxKk x kk => encXkk 0x6 x kk
  | .addVxKk x kk => encXkk 0x7 x kk
  | .ldVxVy x y => encXyn 0x8 x y 0x0
  | .orVxVy x y => encXyn 0x8 x y 0x1
  | .andVxVy x y => encXyn 0x8 x y 0x2
  | .xorVxVy x y => encXyn 0x8 x y 0x3
  | .addVxVy x y => encXyn 0x8 x y 0x4
  | .subVxVy x y => encXyn 0x8 x y 0x5
  | .shrVxVy x y => encXyn 0x8 x y 0x6
  | .subnVxVy x y => encXyn 0x8 x y 0x7
  | .shlVxVy x y => encXyn 0x8 x y 0xE
  | .sneVxVy x y => encXyn 0x9 x y 0x0
  | .ldINnn nnn => encNnn 0xA nnn
  | .jpV0Nnn nnn => encNnn 0xB nnn
  | .rndVxKk x kk => encXkk 0xC x kk
  | .drwVxVyN x y n => encXyn 0xD x y (regNibble n)
  | .skpVx x => encXkk 0xE x 0x9E
  | .sknpVx x => encXkk 0xE x 0xA1
  | .ldVxDt x => encXkk 0xF x 0x07
  | .ldVxK x => encXkk 0xF x 0x0A
  | .ldDtVx x => encXkk 0xF x 0x15
  | .ldStVx x => encXkk 0xF x 0x18
  | .addIVx x => encXkk 0xF x 0x1E
  | .ldFVx x => encXkk 0xF x 0x29
  | .ldBVx x => encXkk 0xF x 0x33
  | .ldMemVx x => encXkk 0xF x 0x55
  | .ldVxMem x => encXkk 0xF x 0x65

/-- The two bytes of an instruction in memory, lowest address first (R70). -/
def encodeBytes (i : Instr) : List Byte := [highByte (encode i), lowByte (encode i)]

/-! ## The host's view of the table -/

/-- The word whose bits are `w`, its bits from `nbits` up zero. -/
def tableWord (nbits w : Nat) : Word := BitVec.ofNat 16 (w % 2 ^ nbits)

/-- The instruction the decoder reads from the two bytes of a table word, laid out as the hardware stores them. -/
def decodeTableWord (nbits w : Nat) : Option Instr :=
  match decodeBytes [highByte (tableWord nbits w), lowByte (tableWord nbits w)] with
  | .ok (i, _) => some i
  | .error _ => none

end Sys2Proof
end

