-- ==== Sys2Proof/Config.lean ====
section
/-! DEFINITION. What an implementation fixes: the constants of R6, the parameters of R7 with the spec's defaults, and the
free values (`opaque`, no body), about which nothing can be proved. -/

namespace Sys2Proof

/-- `MEM_SIZE`: addresses `0x000` to `0xFFF` (R6, R50). -/
abbrev Config.memSize : Nat := 0x1000

/-- `PROG_BASE`: load address and initial `PC` (R6, R38). -/
abbrev Config.progBase : Nat := 0x200

/-- `PROG_MAX`: the greatest program length (R6, R187). -/
abbrev Config.progMax : Nat := 0xE00

/-- The first address past the font (R6, R51). -/
abbrev Config.fontEnd : Nat := 0x050

/-- The number of bytes of `MEM_INIT`, those of `[0x050, 0xFFF]` (R7). -/
abbrev Config.memInitSize : Nat := Config.memSize - Config.fontEnd

/-- The default `FONT` of R52: glyphs 0 to F, five bytes each, top row first. `FONT` itself is an argument of construction
(`Launch.font`). PRESUMED (the spec marks the table as general knowledge, D19); log 4. -/
def Config.defaultFont : List Byte :=
  [0xF0, 0x90, 0x90, 0x90, 0xF0,  0x20, 0x60, 0x20, 0x20, 0x70,
   0xF0, 0x10, 0xF0, 0x80, 0xF0,  0xF0, 0x10, 0xF0, 0x10, 0xF0] ++
  [0x90, 0x90, 0xF0, 0x10, 0x10,  0xF0, 0x80, 0xF0, 0x10, 0xF0,
   0xF0, 0x80, 0xF0, 0x90, 0xF0,  0xF0, 0x10, 0x20, 0x40, 0x40] ++
  [0xF0, 0x90, 0xF0, 0x90, 0xF0,  0xF0, 0x90, 0xF0, 0x10, 0xF0,
   0xF0, 0x90, 0xF0, 0x90, 0x90,  0xE0, 0x90, 0xE0, 0x90, 0xE0] ++
  [0xF0, 0x80, 0x80, 0x80, 0xF0,  0xE0, 0x90, 0x90, 0x90, 0xE0,
   0xF0, 0x80, 0xF0, 0x80, 0xF0,  0xF0, 0x80, 0xF0, 0x80, 0x80]

/-- The byte that the default `MEM_INIT` of R51 and R7 has at every address. `MEM_INIT` itself is an argument of construction
(`Launch.memInit`). PRESUMED (D1: the spec's default, not the source's); log 5. -/
def Config.defaultMemInit : Byte := 0

/-- The two values of `EDGE_POLICY` (R153, D11). -/
inductive EdgePolicy where
  /-- a pixel outside the grid is dropped: it changes no cell and cannot collide -/
  | clip
  /-- a pixel outside the grid appears at the opposite edge -/
  | wrap
deriving DecidableEq, Repr

/-- How `KEY_SELECT` (R164, D9) chooses among the keys that are down. -/
inductive KeySelect where
  /-- the spec's default: the least index that is down -/
  | least
  /-- any other choice function or a fresh choice at each poll: a free value, `Config.keyDraw` -/
  | drawn
deriving DecidableEq, Repr

/-- The launch parameters of R7 and R35 that are not bytes of memory. -/
structure Params where
  edgePolicy : EdgePolicy
  keySelect  : KeySelect
deriving DecidableEq, Repr

/-- The spec's defaults (R7): `clip`, least index. Log 6, log 7: no statement rests on them. -/
def Config.defaultParams : Params := { edgePolicy := .clip, keySelect := .least }

/-- The arguments of construction (R7, R35, R210): the bytes of `[0x000, 0x050)` and of `[0x050, 0xFFF]`, and the parameters the
machine keeps. `FONT` and `MEM_INIT` are used by construction alone, so they are no component of State. -/
structure Launch where
  font    : Vector Byte Config.fontEnd
  memInit : Vector Byte Config.memInitSize
  params  : Params
deriving DecidableEq, Repr

/-- The spec's defaults for all of them (R7; log 4, log 5, log 6, log 7). -/
def Config.defaultLaunch : Launch :=
  { font := ⟨⟨Config.defaultFont⟩, rfl⟩, memInit := Vector.replicate Config.memInitSize Config.defaultMemInit,
    params := Config.defaultParams }

/-- FREE VALUE: the byte that the `n`-th draw of `random_byte()` gives (R121, R34, D12). No body: a claim holds for every
byte. Log 8, safe. -/
opaque Config.randomByte : Nat → Byte

/-- FREE VALUE: the key that draw `n` reports among `down`, under `KeySelect.drawn` (R164). An answer that is not in `down`
is not used, see `Machine.keyChoice`. Log 7, safe. -/
opaque Config.keyDraw (n : Nat) (down : List Nat) : Nat

end Sys2Proof
end

