-- ==== Sys2Proof/Machine/State.lean ====
section
/-! DEFINITION. The machine's state as plain data (10_state.md), the reasons a step can stop, and the state after reset. -/

namespace Sys2Proof.Machine

/-- `Mem` (R33, R50): the listed bytes, addresses strictly rising, no entry equal to what its address reads as when it is not
listed (`Machine.unlisted`). Log 29. -/
abbrev Memory := List Host.Cell

/-- `disp` (R27): row `r`, 0 to 31, holds its 64 one-bit cells as the bits of a vector, cell `(r, c)` being bit `c`. Log 26. -/
abbrev Display := Vector (BitVec 64) 32

/-- The six fault kinds of R180, identified by name (D16). Each is an event of the machine, entered by `Machine.raise`. -/
inductive FaultKind where
  /-- fetch of any `STEP` in `Running`: `PC` odd, below `0x200` or above `0xFFE` (R185) -/
  | fetchFault
  /-- decode: the word matches none of the 34 patterns (R181) -/
  | decodeError
  /-- `2nnn`: `SP = 16` before the push (R182) -/
  | stackOverflow
  /-- `00EE`: `SP = 0` before the pop (R183) -/
  | stackUnderflow
  /-- `Fx33`, `Fx55`, `Fx65`, `Dxyn`: a data address above `0xFFF` (R184) -/
  | addressFault
  /-- `Ex9E`, `ExA1`: `V[x] > 15` (R186) -/
  | keyIndexFault
deriving DecidableEq, Repr

/-- The fault record of `Halted(f)` (R32): the kind, `PC` at the `STEP` that raised it, and the fetched word, or none for a
`FetchFault`. -/
structure FaultRecord where
  kind : FaultKind
  pc   : Word
  word : Option Word
deriving DecidableEq, Repr

/-- The run state (R31). -/
inductive RunState where
  /-- the next `STEP` fetches and executes an instruction -/
  | running
  /-- an `Fx0A` with `x = t` has been decoded; the next `STEP` polls the keypad -/
  | awaitingKey (t : Reg)
  /-- a fatal error `f` has been raised; `STEP` does nothing until the next `LOAD` -/
  | halted (f : FaultRecord)
deriving DecidableEq, Repr

/-- QuirkConfig (R30): written only by `LOAD`. -/
structure Quirks where
  /-- the shift source of `8xy6`, `8xyE`: `V[x]` when true, `V[y]` when false -/
  shiftUsesVx : Bool
  /-- whether `Fx55`, `Fx65` increase `I` by `x+1` -/
  loadStoreIncrementsI : Bool
deriving DecidableEq, Repr

/-- The whole machine state (R20), with the launch parameters of R35 and the model's own counter of draws. -/
structure State where
  /-- V0 to VF (R21) -/
  v : Vector Byte 16
  /-- the index register (R23) -/
  i : Word
  /-- the program counter (R24) -/
  pc : Word
  /-- the call stack, outside `Mem` (R20, R25) -/
  stack : Vector Word 16
  /-- the number of stack entries in use, 0 to 16 (R25) -/
  sp : Fin 17
  /-- the delay timer (R26) -/
  dt : Byte
  /-- the sound timer (R26) -/
  st : Byte
  /-- the display (R27) -/
  disp : Display
  /-- the display's dirty flag (R28) -/
  dirty : Bool
  /-- the keypad: `true` is down (R29) -/
  key : Vector Bool 16
  /-- the quirk pair (R30) -/
  quirks : Quirks
  /-- the run state and its fault record (R31, R32) -/
  run : RunState
  /-- memory (R33) -/
  mem : Memory
  /-- launch parameters, never written by an event (R7, R35; log 6, log 7) -/
  params : Params
  /-- the model's own: how many draws have been made; it indexes the free values (log 8) -/
  draws : Nat
deriving DecidableEq, Repr

/-- Reasons a step could stop with a host-level fault: none. The spec's six fatal faults are events of the machine whose entry
the spec describes (R189), so each is a next state with `run = Halted(f)`; no meaning stops in any other way. Safe. Log 24. -/
inductive Fault where
deriving DecidableEq, Repr

/-- Reasons an event is refused. -/
inductive Refusal where
  /-- raised by an arm of `exec` whose instruction has no meaning yet: no arm of this model. Safe. -/
  | notModelled (mnemonic : String)
  /-- raised by `System.event` for any event but `LOAD` between construction and the first successful `LOAD`, where the spec
  gives the events no meaning and "a model refuses them" (R37, R210, D1). Safe. Log 22. -/
  | beforeFirstLoad
deriving DecidableEq, Repr

/-- What a successful `LOAD` leaves (R37, R211), given memory with the program written into it; the launch parameters and the
draw counter are not the machine's and go on. -/
def State.afterLoad (mem : Memory) (q : Quirks) (params : Params) (draws : Nat) : State :=
  { v := Vector.replicate 16 0, i := 0, pc := 0x200, stack := Vector.replicate 16 0, sp := 0, dt := 0, st := 0,
    disp := Vector.replicate 32 0, dirty := false, key := Vector.replicate 16 false, quirks := q, run := .running,
    mem := mem, params := params, draws := draws }

/-- The launch state (R37): "The state a program starts from is the state after a successful `LOAD`", here the first one after
construction with the default `FONT` and `MEM_INIT` (log 4, log 5), of no bytes (`len = 0` is accepted, R211). The quirk pair is `LOAD`'s argument and has no default (R30):
DESIGN CHOICE both false, log 3; no statement rests on it. -/
def State.reset : State :=
  State.afterLoad [] { shiftUsesVx := false, loadStoreIncrementsI := false } Config.defaultParams 0

end Sys2Proof.Machine
end

