-- ==== Sys2Proof/Machine/Ops.lean ====
section
/-! DEFINITION. The named operations over memory, registers, stack, display and keypad, and the one operation that takes a
fault (R189). There is no return from a fault (R191): only `LOAD` (Machine/Events.lean) leaves `Halted`. -/

namespace Sys2Proof.Machine

/-! ## Memory (R50 to R53) -/

/-- What a byte that no entry lists reads as: the default contents, so that memory is listed as its difference from them. It fixes
a representation and no contents: `constructedMemory` lists whatever another `FONT` or `MEM_INIT` has. Log 29. Beyond `0xFFF` there
is no memory; no operation reads there. -/
def unlisted (a : Nat) : Byte := Config.defaultFont[a]?.getD Config.defaultMemInit

/-- `Mem[a]`, "the byte at address `a` where the range check has been made" (00_scope.md, Notation). -/
def Memory.byte : Memory → Nat → Byte
  | [], a => unlisted a
  | (k, b) :: rest, a => if a = k then b else Memory.byte rest a

/-- Put an entry before the first one of a higher address. -/
def Memory.insert : Memory → Nat → Byte → Memory
  | [], a, b => [(a, b)]
  | (k, c) :: rest, a, b => if a < k then (a, b) :: (k, c) :: rest else (k, c) :: Memory.insert rest a b

/-- `Mem[a] <- b`, in the canonical form: an entry equal to what the address reads as unlisted is removed. The font is written like
any other byte (R57; D20, log 17). -/
def Memory.set (m : Memory) (a : Nat) (b : Byte) : Memory :=
  let others := m.filter (fun c => c.1 != a)
  if b = unlisted a then others else Memory.insert others a b

/-- `bs` at ascending addresses from `a` (R54: "successive items at ascending addresses"). -/
def Memory.setBytes : Memory → Nat → List Byte → Memory
  | m, _, [] => m
  | m, a, b :: bs => Memory.setBytes (Memory.set m a b) (a + 1) bs

/-- Memory after construction: "`Mem[0x000..0x04F] <- FONT`; `Mem[0x050..0xFFF] <- MEM_INIT`" (R210, R51, R52; log 4, log 5). -/
def constructedMemory (font : Vector Byte Config.fontEnd) (memInit : Vector Byte Config.memInitSize) : Memory :=
  Memory.setBytes (Memory.setBytes [] 0 font.toList) Config.fontEnd memInit.toList

/-- The canonical form: addresses strictly rising and inside memory, no entry equal to its unlisted value. -/
def Memory.wf (m : Memory) : Bool :=
  m.Pairwise (fun c d => c.1 < d.1) && m.all (fun c => decide (c.1 < Config.memSize) && c.2 != unlisted c.1)

/-- The range check of R53: an access of `n` bytes at `a` has a byte above `0xFFF`. The sum is of natural numbers and does not
wrap; an access of no byte (a `Dxyn` with `n = 0`) has none (R151). The fault is the spec's D5, log 11. -/
def outOfRange (a n : Nat) : Bool := decide (1 ≤ n) && decide (a + n - 1 > 0xFFF)

/-- `MemRead(a, n)` (R53): the bytes `Mem[a]` to `Mem[a+n-1]`, or none where the range check fails. -/
def memRead (m : Memory) (a n : Nat) : Option (List Byte) :=
  if outOfRange a n then none else some ((List.range n).map (fun j => m.byte (a + j)))

/-- `MemWrite(a, n, bs)` with `n` the length of `bs` (R53): memory after it, or none where the range check fails, so that a
store is whole or not at all. -/
def memWrite (m : Memory) (a : Nat) (bs : List Byte) : Option Memory :=
  if outOfRange a bs.length then none else some (m.setBytes a bs)

/-! ## Registers (R21 to R24) -/

/-- The value of `V[x]` (R21): no register is hardwired. -/
def State.vreg (s : State) (x : Reg) : Byte := s.v[x.val]

/-- `V[x] <- b` (R21). -/
def State.setVreg (s : State) (x : Reg) (b : Byte) : State := { s with v := s.v.set x.val b }

/-- Write `V[j]`, `V[j+1]`, … in turn; there is no register past VF (R21). -/
def setVregsFrom : Vector Byte 16 → Nat → List Byte → Vector Byte 16
  | v, _, [] => v
  | v, j, b :: bs => setVregsFrom (v.setIfInBounds j b) (j + 1) bs

/-- The values of V0 to Vx, in order (R134). -/
def vregsUpTo (s : State) (x : Reg) : List Byte := s.v.toList.take (x.val + 1)

/-- The "16-bit addition" that moves `PC` on (R78). It never overflows from a `PC` that a fetch accepts (R24); from any other
it wraps, log 25. -/
def pcPlus (s : State) (n : Nat) : Word := s.pc + BitVec.ofNat 16 n

/-- "every other instruction: `PC0 + 2`" (R78). -/
def advance (s : State) : State := { s with pc := pcPlus s 2 }

/-- "`PC0 + 4` if the condition holds, else `PC0 + 2`" (R78); the skipped instruction is not fetched. -/
def skipIf (c : Bool) (s : State) : State := { s with pc := pcPlus s (if c then 4 else 2) }

/-- A jump writes its target unchecked (40_control_flow.md, general facts). -/
def jumpTo (target : Word) (s : State) : State := { s with pc := target }

/-! ## Faults (R189) -/

/-- Raise a fault: `run <- Halted(kind, pc = PC, word)`, and "Nothing else changes" (R189). There is no handler, no saved-state
area and no mode (R189, R194). -/
def raise (s : State) (kind : FaultKind) (word : Option Word) : State :=
  { s with run := .halted { kind := kind, pc := s.pc, word := word } }

/-- Raise a fault from instruction `i`. `word` is the fetched word (R180); a word decodes to `i` only if it is `encode i`, so
the instruction gives it back. DEDUCED, log 1. -/
def raiseAt (s : State) (kind : FaultKind) (i : Instr) : State := raise s kind (some (encode i))

/-! ## The call stack (R25; the index convention is the spec's D23, log 19) -/

/-- `stack[SP] <- w; SP <- SP + 1`, or none when `SP = 16`: "SP must be <16 before push". -/
def push (s : State) (w : Word) : Option State :=
  if h : s.sp.val < 16 then some { s with stack := s.stack.set s.sp.val w, sp := ⟨s.sp.val + 1, by omega⟩ } else none

/-- `SP <- SP - 1; result = stack[SP]`, or none when `SP = 0`: "SP must be >0 before pop". The entry is left in place. -/
def pop (s : State) : Option (Word × State) :=
  if h : 0 < s.sp.val then
    some (s.stack[s.sp.val - 1]'(by omega), { s with sp := ⟨s.sp.val - 1, by omega⟩ })
  else none

/-! ## Display (R27) -/

/-- `disp[r][c]`. -/
def Display.cell (d : Display) (p : Fin 32 × Fin 64) : Bool := d[p.1.val].getLsbD p.2.val

/-- `disp[r][c] <- b`. -/
def Display.setCell (d : Display) (p : Fin 32 × Fin 64) (b : Bool) : Display :=
  let row := d[p.1.val]
  let bit := BitVec.twoPow 64 p.2.val
  d.set p.1.val (if b then row ||| bit else row &&& ~~~bit)

/-- All 2048 cells 0 (R150, R211). -/
def Display.clear : Display := Vector.replicate 32 0

/-- `disp[row][col] <- old[row][col] ^ 1` for each listed cell, `old` being the grid before the instruction (R151). -/
def Display.toggleAll (old : Display) (ps : List (Fin 32 × Fin 64)) : Display :=
  ps.foldl (fun d p => Display.setCell d p (!Display.cell old p)) old

/-! ## Free values (log 7, log 8) -/

/-- `draw({0, ..., 255})` for `random_byte()` (R121): the free value and the state whose next draw is another one. -/
def drawByte (s : State) : Byte × State := (Config.randomByte s.draws, { s with draws := s.draws + 1 })

/-! ## Keypad (R29, R163, R164) -/

/-- `D = { k in 0..15 : key[k] = 1 }`, in rising order (R163). -/
def keysDown (s : State) : List Nat := (List.range 16).filter (fun k => s.key[k]?.getD false)

/-- `KEY_SELECT(D)` for the non-empty `D` whose least member is `k` (R164): the least index, or a drawn member. -/
def keyChoice (s : State) (k : Nat) (rest : List Nat) : Nat :=
  match s.params.keySelect with
  | .least => k
  | .drawn =>
    let c := Config.keyDraw s.draws (k :: rest)
    if c ∈ k :: rest then c else k

/-- A choice that was drawn uses up a draw. -/
def drawsAfterChoice (s : State) : Nat :=
  match s.params.keySelect with
  | .least => s.draws
  | .drawn => s.draws + 1

/-- `STEP` in `AwaitingKey(t)` (R163): nothing is fetched and `PC` is not checked; with a key down, `V[t]`, `run` and `PC` are
written and the key state is kept. -/
def pollKeypad (t : Reg) (s : State) : State :=
  match keysDown s with
  | [] => s
  | k :: rest =>
    { s with v := s.v.set t.val (BitVec.ofNat 8 (keyChoice s k rest)), run := .running, pc := pcPlus s 2,
             draws := drawsAfterChoice s }

/-! ## Fetch (R70) -/

/-- The fetch check: `PC` even and `0x200 <= PC <= 0xFFE`, the bound inclusive (R70, 90_conflicts.md C1; D3, log 9). -/
def fetchable (pc : Word) : Bool := !pc.getLsbD 0 && decide (0x200 ≤ pc.toNat) && decide (pc.toNat ≤ 0xFFE)

/-- `Mem[PC] * 256 + Mem[PC + 1]` (R70), where `PC` is fetchable; none is a `FetchFault`. Memory is read at each fetch, so a store
is seen by the next one (R60). -/
def fetchWord (s : State) : Option Word :=
  if fetchable s.pc then some (joinBytes (s.mem.byte s.pc.toNat) (s.mem.byte (s.pc.toNat + 1))) else none

/-- "Halted(f): no change" (R77, R192; D14, log 20). -/
def haltedStep (s : State) : State := s

/-- `raise FetchFault(pc = PC, word = none)` (R70, R185). -/
def raiseFetchFault (s : State) : State := raise s .fetchFault none

/-- `raise DecodeError(pc = PC, word = w)` (R75, R181). -/
def raiseDecodeError (s : State) (w : Word) : State := raise s .decodeError (some w)

end Sys2Proof.Machine
end

