-- ==== Sys2Proof/Machine/Flags.lean ====
section
/-! DEFINITION. VF as the flag register: every flag computation the spec gives (R22), and the write-back of an instruction that
writes VF and `V[x]` (R81). A flag is always 0 or 1. -/

namespace Sys2Proof.Machine

/-- A flag as the byte written to VF. -/
def flagByte (b : Bool) : Byte := if b then 1 else 0

/-- `8xy4`: carry out of the 8-bit addition, `a + b > 255` (R116). -/
def carryFlag (a b : Byte) : Byte := flagByte (decide (a.toNat + b.toNat > 255))

/-- `8xy5`, `8xy7`: no borrow out of `a - b`, `a >= b` (R117, R119, R122). -/
def noBorrowFlag (a b : Byte) : Byte := flagByte (!decide (a.toNat < b.toNat))

/-- `8xy6`: bit 0, the bit shifted out at the bottom (R118). -/
def lowBitFlag (s : Byte) : Byte := flagByte (s.getLsbD 0)

/-- `8xyE`: bit 7, the bit shifted out at the top (R120). -/
def highBitFlag (s : Byte) : Byte := flagByte (s.getLsbD 7)

/-- `Dxyn`: whether some toggled cell was lit (R151). -/
def collisionFlag (hit : Bool) : Byte := flagByte hit

/-- "VF first, then `V[x]`": when `x = F` the result replaces the flag (R81, R123; D7, log 13). The operands are arguments, so
they were read before either write. -/
def writeFlagThenResult (s : State) (x : Reg) (flag result : Byte) : State := (s.setVreg regF flag).setVreg x result

end Sys2Proof.Machine
end

