-- ==== Sys2Proof/Machine/Operands.lean ====
section
/-! DEFINITION. Operand forms: how a field of the instruction, a register or a quirk gives the value an instruction works on
(R73, R81), and the cells a sprite touches (R151 to R153). -/

namespace Sys2Proof.Machine

/-- `zext_16(nnn)` (R73). -/
def addrOperand (nnn : Addr12) : Word := nnn.setWidth 16

/-- `zext_16(a)` of a byte (R73, R97, R131). -/
def byteOperand (b : Byte) : Word := b.setWidth 16

/-- The source of `8xy6` and `8xyE`: `shiftUsesVx ? V[x] : V[y]` (R30, R118, R120). -/
def shiftSource (s : State) (x y : Reg) : Byte := if s.quirks.shiftUsesVx then s.vreg x else s.vreg y

/-- The effective address of the data at `I`, a natural number (42_index_memory.md, Addressing). -/
def dataAddress (s : State) : Nat := s.i.toNat

/-- `I` after `Fx55` or `Fx65`: `(I + x + 1) mod 65536` under `loadStoreIncrementsI`, else unchanged (R134, R135). -/
def indexAfterBulk (s : State) (x : Reg) : Word :=
  if s.quirks.loadStoreIncrementsI then BitVec.ofNat 16 (s.i.toNat + x.val + 1) else s.i

/-- The three decimal digits of a byte: hundreds, tens, ones (R133). -/
def bcdDigits (a : Byte) : List Byte :=
  [BitVec.ofNat 8 (a.toNat / 100), BitVec.ofNat 8 (a.toNat / 10 % 10), BitVec.ofNat 8 (a.toNat % 10)]

/-- The keypad index an `Ex9E` or `ExA1` names: `V[x]`, not masked; none above 15 (R160, R161; D8, log 14). -/
def keyOperand (s : State) (x : Reg) : Option (Fin 16) :=
  if h : (s.vreg x).toNat < 16 then some ⟨(s.vreg x).toNat, h⟩ else none

/-- "If the sprite's origin (Vx,Vy) is fully outside the 64×32 grid (Vx>63 or Vy>31)": on the whole register values (R151). -/
def originOffScreen (cx cy : Byte) : Bool := decide (cx.toNat > 63) || decide (cy.toNat > 31)

/-- `Target(col, row)` (R153): the cell a pixel lands on, none where it is not visible. -/
def pixelTarget (policy : EdgePolicy) (col row : Nat) : Option (Fin 32 × Fin 64) :=
  match policy with
  | .clip => if h : col ≤ 63 ∧ row ≤ 31 then some (⟨row, by omega⟩, ⟨col, by omega⟩) else none
  | .wrap => some (⟨row % 32, by omega⟩, ⟨col % 64, by omega⟩)

/-- The visible cells of one sprite byte, its leftmost pixel at column `cx` of row `row`: bit `7 - c` is column offset `c`
(R151, R152; D18, log 16). -/
def rowPixels (policy : EdgePolicy) (cx row : Nat) (bits : Byte) : List (Fin 32 × Fin 64) :=
  (List.range 8).filterMap (fun c => if bits.getLsbD (7 - c) then pixelTarget policy (cx + c) row else none)

/-- The visible cells of a sprite: "one byte per row, top row first" (R151). -/
def spritePixels (policy : EdgePolicy) (cx : Nat) : Nat → List Byte → List (Fin 32 × Fin 64)
  | _, [] => []
  | row, bits :: below => rowPixels policy cx row bits ++ spritePixels policy cx (row + 1) below

end Sys2Proof.Machine
end

