-- ==== Sys2Proof/Machine/Alu.lean ====
section
/-! DEFINITION. Register load, arithmetic, logic, shifts, random (41_alu.md). Each ends with `PC <- PC0 + 2` (R78); none accesses
memory and none raises a fault. -/

namespace Sys2Proof.Machine

/-- `6xkk` LD Vx, kk (R110). -/
def execLdVxKk (x : Reg) (kk : Byte) (s : State) : Host.Outcome State Fault Refusal := .next (advance (s.setVreg x kk))

/-- `7xkk` ADD Vx, kk (R111): modulo 256, no flag. -/
def execAddVxKk (x : Reg) (kk : Byte) (s : State) : Host.Outcome State Fault Refusal :=
  .next (advance (s.setVreg x (s.vreg x + kk)))

/-- `8xy0` LD Vx, Vy (R112). -/
def execLdVxVy (x y : Reg) (s : State) : Host.Outcome State Fault Refusal := .next (advance (s.setVreg x (s.vreg y)))

/-- `8xy1` OR Vx, Vy (R113): VF is left unchanged. -/
def execOrVxVy (x y : Reg) (s : State) : Host.Outcome State Fault Refusal :=
  .next (advance (s.setVreg x (s.vreg x ||| s.vreg y)))

/-- `8xy2` AND Vx, Vy (R114). -/
def execAndVxVy (x y : Reg) (s : State) : Host.Outcome State Fault Refusal :=
  .next (advance (s.setVreg x (s.vreg x &&& s.vreg y)))

/-- `8xy3` XOR Vx, Vy (R115). -/
def execXorVxVy (x y : Reg) (s : State) : Host.Outcome State Fault Refusal :=
  .next (advance (s.setVreg x (s.vreg x ^^^ s.vreg y)))

/-- `8xy4` ADD Vx, Vy (R116): VF is the carry. -/
def execAddVxVy (x y : Reg) (s : State) : Host.Outcome State Fault Refusal :=
  .next (advance (writeFlagThenResult s x (carryFlag (s.vreg x) (s.vreg y)) (s.vreg x + s.vreg y)))

/-- `8xy5` SUB Vx, Vy (R117): VF is no-borrow. -/
def execSubVxVy (x y : Reg) (s : State) : Host.Outcome State Fault Refusal :=
  .next (advance (writeFlagThenResult s x (noBorrowFlag (s.vreg x) (s.vreg y)) (s.vreg x - s.vreg y)))

/-- `8xy6` SHR Vx, Vy (R118): VF is the bit shifted out. -/
def execShrVxVy (x y : Reg) (s : State) : Host.Outcome State Fault Refusal :=
  .next (advance (writeFlagThenResult s x (lowBitFlag (shiftSource s x y)) (shiftSource s x y >>> 1)))

/-- `8xy7` SUBN Vx, Vy (R119): `V[y] - V[x]`, VF is no-borrow. -/
def execSubnVxVy (x y : Reg) (s : State) : Host.Outcome State Fault Refusal :=
  .next (advance (writeFlagThenResult s x (noBorrowFlag (s.vreg y) (s.vreg x)) (s.vreg y - s.vreg x)))

/-- `8xyE` SHL Vx, Vy (R120): VF is the bit shifted out. -/
def execShlVxVy (x y : Reg) (s : State) : Host.Outcome State Fault Refusal :=
  .next (advance (writeFlagThenResult s x (highBitFlag (shiftSource s x y)) (shiftSource s x y <<< 1)))

/-- `Cxkk` RND Vx, kk (R121): the drawn byte is a free value. -/
def execRndVxKk (x : Reg) (kk : Byte) (s : State) : Host.Outcome State Fault Refusal :=
  .next (advance ((drawByte s).2.setVreg x (kk &&& (drawByte s).1)))

end Sys2Proof.Machine
end

