-- ==== Sys2Proof/Machine/Control.lean ====
section
/-! DEFINITION. Control transfer (40_control_flow.md): `00EE`, `1nnn`, `2nnn`, `3xkk`, `4xkk`, `5xy0`, `9xy0`, `Bnnn`. -/

namespace Sys2Proof.Machine

/-- `00EE` RET (R90): the popped value is `PC` as it is. -/
def execRet (s : State) : Host.Outcome State Fault Refusal :=
  match pop s with
  | none => .next (raiseAt s .stackUnderflow .ret)
  | some (t, s') => .next (jumpTo t s')

/-- `1nnn` JP nnn (R91). -/
def execJpNnn (nnn : Addr12) (s : State) : Host.Outcome State Fault Refusal := .next (jumpTo (addrOperand nnn) s)

/-- `2nnn` CALL nnn (R92): pushes `PC0 + 2`. -/
def execCallNnn (nnn : Addr12) (s : State) : Host.Outcome State Fault Refusal :=
  match push s (pcPlus s 2) with
  | none => .next (raiseAt s .stackOverflow (.callNnn nnn))
  | some s' => .next (jumpTo (addrOperand nnn) s')

/-- `3xkk` SE Vx, kk (R93). -/
def execSeVxKk (x : Reg) (kk : Byte) (s : State) : Host.Outcome State Fault Refusal := .next (skipIf (s.vreg x == kk) s)

/-- `4xkk` SNE Vx, kk (R94). -/
def execSneVxKk (x : Reg) (kk : Byte) (s : State) : Host.Outcome State Fault Refusal := .next (skipIf (s.vreg x != kk) s)

/-- `5xy0` SE Vx, Vy (R95). -/
def execSeVxVy (x y : Reg) (s : State) : Host.Outcome State Fault Refusal := .next (skipIf (s.vreg x == s.vreg y) s)

/-- `9xy0` SNE Vx, Vy (R96). -/
def execSneVxVy (x y : Reg) (s : State) : Host.Outcome State Fault Refusal := .next (skipIf (s.vreg x != s.vreg y) s)

/-- `Bnnn` JP V0, nnn (R97): always V0, no reduction modulo 4096. -/
def execJpV0Nnn (nnn : Addr12) (s : State) : Host.Outcome State Fault Refusal :=
  .next (jumpTo (addrOperand nnn + byteOperand (s.vreg 0)) s)

end Sys2Proof.Machine
end

