-- ==== Sys2Proof/Machine/Draw.lean ====
section
/-! DEFINITION. The display instructions (43_display.md): `00E0`, `Dxyn`. -/

namespace Sys2Proof.Machine

/-- `00E0` CLS (R150): every cell 0; `dirty` and VF unchanged (D22, log 18). -/
def execCls (s : State) : Host.Outcome State Fault Refusal := .next (advance { s with disp := Display.clear })

/-- An on-screen `Dxyn` once its sprite bytes are read (R151): the cells toggle, VF is the collision, `dirty` is raised. -/
def drawSprite (s : State) (cx cy : Byte) (sprite : List Byte) : State :=
  let pixels := spritePixels s.params.edgePolicy cx.toNat cy.toNat sprite
  { s with disp := Display.toggleAll s.disp pixels, dirty := true,
           v := s.v.set regF.val (collisionFlag (pixels.any (Display.cell s.disp))) }

/-- `Dxyn` DRW Vx, Vy, n (R151): an off-screen origin only clears VF (D10, C3, log 15); else `n` bytes at `I` are drawn, or, where
one lies above `0xFFF`, nothing changes. -/
def execDrwVxVyN (x y : Reg) (n : Fin 16) (s : State) : Host.Outcome State Fault Refusal :=
  if originOffScreen (s.vreg x) (s.vreg y) then .next (advance (s.setVreg regF 0))
  else
    match memRead s.mem (dataAddress s) n.val with
    | none => .next (raiseAt s .addressFault (.drwVxVyN x y n))
    | some sprite => .next (advance (drawSprite s (s.vreg x) (s.vreg y) sprite))

end Sys2Proof.Machine
end

