-- ==== Sys2Proof/Machine/IndexMemory.lean ====
section
/-! DEFINITION. Index register, BCD store, bulk store and load (42_index_memory.md). Each that completes ends with
`PC <- PC0 + 2` (R78). -/

namespace Sys2Proof.Machine

/-- `Annn` LD I, nnn (R130). -/
def execLdINnn (nnn : Addr12) (s : State) : Host.Outcome State Fault Refusal :=
  .next (advance { s with i := addrOperand nnn })

/-- `Fx1E` ADD I, Vx (R131): modulo 65536, VF not written (D6, log 12). -/
def execAddIVx (x : Reg) (s : State) : Host.Outcome State Fault Refusal :=
  .next (advance { s with i := s.i + byteOperand (s.vreg x) })

/-- `Fx29` LD F, Vx (R132): the whole of `V[x]` times 5. -/
def execLdFVx (x : Reg) (s : State) : Host.Outcome State Fault Refusal :=
  .next (advance { s with i := byteOperand (s.vreg x) * 5 })

/-- `Fx33` LD B, Vx (R133): three bytes or, on an address above `0xFFF`, none. -/
def execLdBVx (x : Reg) (s : State) : Host.Outcome State Fault Refusal :=
  match memWrite s.mem (dataAddress s) (bcdDigits (s.vreg x)) with
  | none => .next (raiseAt s .addressFault (.ldBVx x))
  | some m => .next (advance { s with mem := m })

/-- `Fx55` LD [I], Vx (R134): `x + 1` bytes or, on an address above `0xFFF`, none. -/
def execLdMemVx (x : Reg) (s : State) : Host.Outcome State Fault Refusal :=
  match memWrite s.mem (dataAddress s) (vregsUpTo s x) with
  | none => .next (raiseAt s .addressFault (.ldMemVx x))
  | some m => .next (advance { s with mem := m, i := indexAfterBulk s x })

/-- `Fx65` LD Vx, [I] (R135): `x + 1` registers or, on an address above `0xFFF`, none. -/
def execLdVxMem (x : Reg) (s : State) : Host.Outcome State Fault Refusal :=
  match memRead s.mem (dataAddress s) (x.val + 1) with
  | none => .next (raiseAt s .addressFault (.ldVxMem x))
  | some bs => .next (advance { s with v := setVregsFrom s.v 0 bs, i := indexAfterBulk s x })

end Sys2Proof.Machine
end

