-- ==== Sys2Proof/Machine/Keypad.lean ====
section
/-! DEFINITION. The keypad and timer instructions (44_keypad_timers.md). -/

namespace Sys2Proof.Machine

/-- `Ex9E` SKP Vx (R160): the level of key `V[x]`, which is not consumed. -/
def execSkpVx (x : Reg) (s : State) : Host.Outcome State Fault Refusal :=
  match keyOperand s x with
  | none => .next (raiseAt s .keyIndexFault (.skpVx x))
  | some k => .next (skipIf s.key[k.val] s)

/-- `ExA1` SKNP Vx (R161). -/
def execSknpVx (x : Reg) (s : State) : Host.Outcome State Fault Refusal :=
  match keyOperand s x with
  | none => .next (raiseAt s .keyIndexFault (.sknpVx x))
  | some k => .next (skipIf (!s.key[k.val]) s)

/-- `Fx07` LD Vx, DT (R165). -/
def execLdVxDt (x : Reg) (s : State) : Host.Outcome State Fault Refusal := .next (advance (s.setVreg x s.dt))

/-- `Fx0A` LD Vx, K (R162): only `run <- AwaitingKey(x)`; `PC` stays and the keypad is not examined in this `STEP`. A later
`STEP` completes it (`pollKeypad`, R163). -/
def execLdVxK (x : Reg) (s : State) : Host.Outcome State Fault Refusal := .next { s with run := .awaitingKey x }

/-- `Fx15` LD DT, Vx (R166). -/
def execLdDtVx (x : Reg) (s : State) : Host.Outcome State Fault Refusal := .next (advance { s with dt := s.vreg x })

/-- `Fx18` LD ST, Vx (R167). -/
def execLdStVx (x : Reg) (s : State) : Host.Outcome State Fault Refusal := .next (advance { s with st := s.vreg x })

end Sys2Proof.Machine
end

