-- ==== Sys2Proof/Machine/Step.lean ====
section
/-! DEFINITION. One `STEP` (R77), and the host's way to place an instruction where the next `STEP` fetches it. -/

namespace Sys2Proof.Machine

/-- `STEP` (R77): nothing in `Halted`, one keypad poll in `AwaitingKey`, one fetch-decode-execute cycle in `Running`. It is the
spec's `STEP` event alone; the other events are in Machine/Events.lean (log 2). -/
def step (s : State) : Host.Outcome State Fault Refusal :=
  match s.run with
  | .halted _ => .next (haltedStep s)
  | .awaitingKey t => .next (pollKeypad t s)
  | .running =>
    match fetchWord s with
    | none => .next (raiseFetchFault s)
    | some w =>
      match decode w with
      | .error _ => .next (raiseDecodeError s w)
      | .ok i => exec i s

/-- `s` with the table word stored where `step` fetches next: at `PC` where a fetch accepts it, else at `0x200` with `PC` there,
and `run` in `Running`. It stands for the `LOAD` of a program from outside the machine (log 3). -/
def State.withFetchWord (s : State) (nbits w : Nat) : State :=
  let pc : Word := if fetchable s.pc then s.pc else BitVec.ofNat 16 Config.progBase
  { s with pc := pc, run := .running,
           mem := s.mem.setBytes pc.toNat [highByte (tableWord nbits w), lowByte (tableWord nbits w)] }

end Sys2Proof.Machine
end

