-- ==== Sys2Proof/Machine/Events.lean ====
section
/-! DEFINITION. The host's events (R8): `STEP` is `Machine.step`; here are `TICK`, `SETKEY`, `LOAD`, `CLEARDIRTY` and the reads, and
the machine from construction on (R210). Every event is atomic and none falls inside an instruction (R8); a run is any list of
events, which is every interleaving of the agents of R9 (D21, log 2). -/

namespace Sys2Proof.Machine

/-- "decremented by 1 per 60 Hz tick while >0; floor at 0, never wrap" (R26, R168). -/
def countDown (t : Byte) : Byte := if t.toNat > 0 then t - 1 else t

/-- `TICK` (R168): the two timers, in every run state (D14, log 20), and nothing else. -/
def tick (s : State) : State := { s with dt := countDown s.dt, st := countDown s.st }

/-- `SETKEY(k, down)` (R170). An index above 15 is not a move the host has (D25, log 23), so the type has none. -/
def setKey (k : Fin 16) (down : Bool) (s : State) : State := { s with key := s.key.set k.val down }

/-- `CLEARDIRTY` (R154). -/
def clearDirty (s : State) : State := { s with dirty := false }

/-- `GETFRAME` (R154): the 2048 cells, rows top to bottom, `frame[r][c] = disp[r][c]`. -/
def getFrame (s : State) : List (List Bool) := s.disp.toList.map (fun row => (List.range 64).map row.getLsbD)

/-- `ISDIRTY` (R154). -/
def isDirty (s : State) : Bool := s.dirty

/-- `ISSOUNDACTIVE` (R169): `ST > 0`. -/
def isSoundActive (s : State) : Bool := decide (s.st.toNat > 0)

/-- `LOAD(bytes, q)` into memory `mem` (R211): none is `RomTooLarge` (R187). No byte outside the program is written (D2, log 21)
and `run` becomes `Running` from any run state (D13, log 21). -/
def loadInto (mem : Memory) (params : Params) (draws : Nat) (bytes : List Byte) (q : Quirks) : Option State :=
  if bytes.length > Config.progMax then none
  else some (State.afterLoad (mem.setBytes Config.progBase bytes) q params draws)

/-- `LOAD` on a launched machine (R211). -/
def load (bytes : List Byte) (q : Quirks) (s : State) : Option State := loadInto s.mem s.params s.draws bytes q

/-- The events of R8. -/
inductive Event where
  | step
  | tick
  | setKey (k : Fin 16) (down : Bool)
  | load (bytes : List Byte) (q : Quirks)
  | getFrame
  | isDirty
  | clearDirty
  | isSoundActive
deriving DecidableEq, Repr

/-- What the host reads from an event. -/
inductive Reply where
  /-- nothing is read -/
  | done
  /-- the grid `GETFRAME` returns (R154) -/
  | frame (cells : List (List Bool))
  /-- the bit `ISDIRTY` or `ISSOUNDACTIVE` returns (R154, R169) -/
  | bit (b : Bool)
  /-- `LOAD` "Fails with `RomTooLarge`" (R187) -/
  | romTooLarge
deriving DecidableEq, Repr

/-- The machine since power-on (R37, R210). -/
inductive System where
  /-- after construction and before the first successful `LOAD`: memory holds `FONT` and `MEM_INIT`, and every other component is
  unspecified, so none is named -/
  | constructed (mem : Memory) (params : Params)
  /-- after a successful `LOAD` -/
  | launched (s : State)
deriving DecidableEq, Repr

/-- Construction (R210), from the arguments of R7: memory is `FONT` and `MEM_INIT`, and nothing else is specified. -/
def System.powerOn (l : Launch) : System := .constructed (constructedMemory l.font l.memInit) l.params

/-- One event on a launched machine (R8): the state after it and what the host reads. -/
def State.event (e : Event) (s : State) : Host.Outcome (State × Reply) Fault Refusal :=
  match e with
  | .step =>
    match step s with
    | .next t => .next (t, .done)
    | .fault r => .fault r
    | .refused r => .refused r
  | .tick => .next (tick s, .done)
  | .setKey k down => .next (Machine.setKey k down s, .done)
  | .load bytes q =>
    match Machine.load bytes q s with
    | some t => .next (t, .done)
    | none => .next (s, .romTooLarge)
  | .getFrame => .next (s, .frame (Machine.getFrame s))
  | .isDirty => .next (s, .bit (Machine.isDirty s))
  | .clearDirty => .next (Machine.clearDirty s, .done)
  | .isSoundActive => .next (s, .bit (Machine.isSoundActive s))

/-- One event on the machine since power-on. Before the first successful `LOAD` every other event is refused (R210, D1, log 22). -/
def System.event (e : Event) (m : System) : Host.Outcome (System × Reply) Fault Refusal :=
  match m with
  | .launched s =>
    match State.event e s with
    | .next (t, r) => .next (.launched t, r)
    | .fault r => .fault r
    | .refused r => .refused r
  | .constructed mem params =>
    match e with
    | .load bytes q =>
      match loadInto mem params 0 bytes q with
      | some s => .next (.launched s, .done)
      | none => .next (.constructed mem params, .romTooLarge)
    | .step | .tick | .setKey _ _ | .getFrame | .isDirty | .clearDirty | .isSoundActive => .refused .beforeFirstLoad

/-- A run: events one after another, stopping at the first refusal. -/
def System.run : List Event → System → Host.Outcome System Fault Refusal
  | [], m => .next m
  | e :: es, m =>
    match System.event e m with
    | .next (m', _) => System.run es m'
    | .fault r => .fault r
    | .refused r => .refused r

end Sys2Proof.Machine
end

