-- ==== Sys2Proof/Safety.lean ====
section
/-! DEFINITION. The terms claims are stated in: when the next `STEP` faults (R180, R188), what counts as a safe, finished or hanging
run (R192, R199, R216), which component each instruction may write (R36), the invariant of a launched machine, and which cells a
sprite covers (R151 to R153). Nothing here is called by the machine. -/

namespace Sys2Proof.Machine

/-! ## Faults and runs -/

/-- The fault condition of an instruction (R180, R188): "No instruction has two execution-stage fault conditions ... and the other
26 instructions none". -/
def faultOf (i : Instr) (s : State) : Option FaultKind :=
  match i with
  | .ret => if s.sp.val = 0 then some .stackUnderflow else none
  | .callNnn _ => if s.sp.val = 16 then some .stackOverflow else none
  | .skpVx x | .sknpVx x => if (s.vreg x).toNat > 15 then some .keyIndexFault else none
  | .ldBVx _ => if s.i.toNat + 2 > 0xFFF then some .addressFault else none
  | .ldMemVx x | .ldVxMem x => if s.i.toNat + x.val > 0xFFF then some .addressFault else none
  | .drwVxVyN x y n =>
    if ¬((s.vreg x).toNat > 63 ∨ (s.vreg y).toNat > 31) ∧ n.val ≥ 1 ∧ s.i.toNat + n.val - 1 > 0xFFF then some .addressFault
    else none
  | .cls | .jpNnn _ | .seVxKk _ _ | .sneVxKk _ _ | .seVxVy _ _ | .ldVxKk _ _ | .addVxKk _ _ | .ldVxVy _ _ | .orVxVy _ _
  | .andVxVy _ _ | .xorVxVy _ _ | .addVxVy _ _ | .subVxVy _ _ | .shrVxVy _ _ | .subnVxVy _ _ | .shlVxVy _ _ | .sneVxVy _ _
  | .ldINnn _ | .jpV0Nnn _ | .rndVxKk _ _ | .ldVxDt _ | .ldVxK _ | .ldDtVx _ | .ldStVx _ | .addIVx _ | .ldFVx _ => none

/-- The fault a `STEP` in `Running` raises from this state, in the order of R188: `FetchFault` first, then `DecodeError`, then the
one fault of the decoded instruction. -/
def pendingFault (s : State) : Option FaultKind :=
  match fetchWord s with
  | none => some .fetchFault
  | some w =>
    match decode w with
    | .error _ => some .decodeError
    | .ok i => faultOf i s

/-- A state no fault has stopped (R192: "A halted state is never a successful end of a run"). -/
def State.Safe (s : State) : Prop := ∀ f, s.run ≠ .halted f

/-- The spec's suggested end of a run (R216, D15): `Running`, with `PC` at a `1nnn` that jumps to itself. DESIGN CHOICE of the spec,
log 28. -/
def State.endOfRun (s : State) : Prop := s.run = .running ∧ fetchWord s = some (encode (.jpNnn (s.pc.setWidth 12)))

/-- A wait that no `STEP` lifts (R199): a `SETKEY` lifts it, or a new `LOAD` ends it (R211). -/
def State.hangs (s : State) : Prop := (∃ t, s.run = .awaitingKey t) ∧ ∀ k : Fin 16, s.key[k.val] = false

/-! ## Who writes what (R36) -/

/-- The components of the state, down to one register, stack entry, cell, key and byte of memory. -/
inductive Component where
  | vreg (x : Reg)
  | index
  | pc
  | stackEntry (j : Fin 16)
  | sp
  | dt
  | st
  | cell (p : Fin 32 × Fin 64)
  | dirty
  | key (k : Fin 16)
  | quirks
  | run
  | memByte (a : Nat)
  | params
  | draws
deriving DecidableEq, Repr

/-- The component holds the same in both states; memory is compared through the model's read of one byte. -/
def Component.Same (c : Component) (s t : State) : Prop :=
  match c with
  | .vreg x => t.vreg x = s.vreg x
  | .index => t.i = s.i
  | .pc => t.pc = s.pc
  | .stackEntry j => t.stack[j.val] = s.stack[j.val]
  | .sp => t.sp = s.sp
  | .dt => t.dt = s.dt
  | .st => t.st = s.st
  | .cell p => Display.cell t.disp p = Display.cell s.disp p
  | .dirty => t.dirty = s.dirty
  | .key k => t.key[k.val] = s.key[k.val]
  | .quirks => t.quirks = s.quirks
  | .run => t.run = s.run
  | .memByte a => t.mem.byte a = s.mem.byte a
  | .params => t.params = s.params
  | .draws => t.draws = s.draws

/-- Every component outside `w` is the same: the frame of a change from `s` to `t`. -/
def OnlyChanges (w : Component → Prop) (s t : State) : Prop := ∀ c, ¬ w c → c.Same s t

/-- Every component but the listed ones is the same. -/
def OnlyListed (cs : List Component) (s t : State) : Prop := OnlyChanges (fun c => c ∈ cs) s t

/-- The V registers an instruction writes (R22, R36): the six flag writers write VF whatever `x` is. -/
def writesVreg (i : Instr) (r : Reg) : Prop :=
  match i with
  | .ldVxKk x _ | .addVxKk x _ | .ldVxVy x _ | .orVxVy x _ | .andVxVy x _ | .xorVxVy x _ | .rndVxKk x _ | .ldVxDt x => r = x
  | .addVxVy x _ | .subVxVy x _ | .shrVxVy x _ | .subnVxVy x _ | .shlVxVy x _ => r = x ∨ r = regF
  | .drwVxVyN _ _ _ => r = regF
  | .ldVxMem x => r.val ≤ x.val
  | _ => False

/-- R36 for an instruction that runs without a fault: the components it may write. The stored bytes are those from
`dataAddress`, which the meanings use. -/
def mayWrite (i : Instr) (s : State) (c : Component) : Prop :=
  match c with
  | .vreg r => writesVreg i r
  | .index =>
    match i with
    | .ldINnn _ | .addIVx _ | .ldFVx _ => True
    | .ldMemVx _ | .ldVxMem _ => s.quirks.loadStoreIncrementsI = true
    | _ => False
  | .pc => ∀ x, i ≠ .ldVxK x
  | .stackEntry j => (∃ nnn, i = .callNnn nnn) ∧ j.val = s.sp.val
  | .sp => i = .ret ∨ ∃ nnn, i = .callNnn nnn
  | .dt => ∃ x, i = .ldDtVx x
  | .st => ∃ x, i = .ldStVx x
  | .cell _ => i = .cls ∨ ∃ x y n, i = .drwVxVyN x y n
  | .dirty => ∃ x y n, i = .drwVxVyN x y n
  | .run => ∃ x, i = .ldVxK x
  | .memByte a =>
    match i with
    | .ldBVx _ => dataAddress s ≤ a ∧ a < dataAddress s + 3
    | .ldMemVx x => dataAddress s ≤ a ∧ a < dataAddress s + x.val + 1
    | _ => False
  | .draws => ∃ x kk, i = .rndVxKk x kk
  | .key _ | .quirks | .params => False

/-- R36 for a host event other than `STEP`: the components it may write. -/
def eventMayWrite (e : Event) (c : Component) : Prop :=
  match e with
  | .tick => c = .dt ∨ c = .st
  | .setKey k _ => c = .key k
  | .clearDirty => c = .dirty
  | .load bytes _ =>
    match c with
    | .memByte a => Config.progBase ≤ a ∧ a < Config.progBase + bytes.length
    | .params | .draws => False
    | _ => True
  | .step | .getFrame | .isDirty | .isSoundActive => False

/-! ## The invariant of a launched machine -/

/-- What every event keeps: memory is in its canonical form; `PC` is at most the greatest value an instruction writes (R24); every
stack entry in use is an even address `PC0 + 2` of a call (R90, R92); while `AwaitingKey(t)`, `PC` is still at that `Fx0A` (R162);
while `Halted(f)`, `f` is exactly the fault this state shows, its `pc` and its word (R189, R190). -/
structure State.Inv (s : State) : Prop where
  memCanonical : s.mem.wf = true
  pcBound : s.pc.toNat ≤ 0x10FE
  stackReturns : ∀ j : Fin 16, j.val < s.sp.val →
    s.stack[j.val].toNat % 2 = 0 ∧ 0x202 ≤ s.stack[j.val].toNat ∧ s.stack[j.val].toNat ≤ 0x1000
  waitsAtKeyWait : ∀ t, s.run = .awaitingKey t → fetchWord s = some (encode (.ldVxK t))
  haltedIsPrecise : ∀ f, s.run = .halted f → pendingFault s = some f.kind ∧ f.pc = s.pc ∧ f.word = fetchWord s

/-! ## Sprites -/

/-- Whether the sprite of `n` bytes at `a`, drawn from column `cx` and row `cy`, has a 1 bit on cell `p` (R151 to R153): byte `r` is
sprite row `r`, bit `7 - c` its column `c`. -/
def spriteCovers (policy : EdgePolicy) (m : Memory) (a n cx cy : Nat) (p : Fin 32 × Fin 64) : Bool :=
  match policy with
  | .clip =>
    decide (cy ≤ p.1.val) && decide (p.1.val < cy + n) && decide (cx ≤ p.2.val) && decide (p.2.val < cx + 8) &&
      (m.byte (a + (p.1.val - cy))).getLsbD (7 - (p.2.val - cx))
  | .wrap =>
    decide ((p.1.val + 32 - cy) % 32 < n) && decide ((p.2.val + 64 - cx) % 64 < 8) &&
      (m.byte (a + (p.1.val + 32 - cy) % 32)).getLsbD (7 - (p.2.val + 64 - cx) % 64)

end Sys2Proof.Machine
end

