-- ==== Sys2Proof/Certificates/Slice0/Obligations.lean ====
section
/-! DEFINITION. The statements for the provers. `.next t` is a next state; a fault of the machine is a next state whose `run` is
`Halted(f)` (R189). `OnlyListed cs s t` and `OnlyChanges w s t` are frames: every other register, flag, stack entry, timer, cell,
key, quirk, parameter and byte of memory is the same in `t` as in `s` (Safety.lean). -/

open Sys2Proof Sys2Proof.Machine

/-! ## Encoding -/

/-- Decoding the two bytes of any instruction, with any bytes after them, gives the instruction back and the rest: every operand at
every value its field admits (R71, R72; big-endian, R70). -/
def Obligations.DecodeOfEncodeGivesTheInstruction : Prop :=
  ∀ (i : Instr) (rest : List Byte), decodeBytes (encodeBytes i ++ rest) = .ok (i, rest)

/-- A word that decodes is the encoding of what it decodes to, so no bit of it is ignored. The fault record's `word` rests on this
(log 1). -/
def Obligations.EncodeOfDecodeGivesTheWord : Prop := ∀ (w : Word) (i : Instr), decode w = .ok i → encode i = w

/-- R74: each row of the opcode map decodes to its instruction, the fields being `x = w[11:8]`, `y = w[7:4]`, `n = w[3:0]`,
`kk = w[7:0]`, `nnn = w[11:0]` by arithmetic on the word as a number; and no word matches two of the 34 rows. -/
def Obligations.DecodeFollowsTheOpcodeMap : Prop :=
  (∀ w : Word,
    let x : Reg := Fin.ofNat 16 (w.toNat / 256)
    let y : Reg := Fin.ofNat 16 (w.toNat / 16)
    let n : Fin 16 := Fin.ofNat 16 w.toNat
    let kk := BitVec.ofNat 8 w.toNat
    let nnn := BitVec.ofNat 12 w.toNat
    (w &&& 0xFFFF = 0x00E0 → decode w = .ok .cls) ∧ (w &&& 0xFFFF = 0x00EE → decode w = .ok .ret) ∧
    (w &&& 0xF000 = 0x1000 → decode w = .ok (.jpNnn nnn)) ∧ (w &&& 0xF000 = 0x2000 → decode w = .ok (.callNnn nnn)) ∧
    (w &&& 0xF000 = 0x3000 → decode w = .ok (.seVxKk x kk)) ∧ (w &&& 0xF000 = 0x4000 → decode w = .ok (.sneVxKk x kk)) ∧
    (w &&& 0xF00F = 0x5000 → decode w = .ok (.seVxVy x y)) ∧ (w &&& 0xF000 = 0x6000 → decode w = .ok (.ldVxKk x kk)) ∧
    (w &&& 0xF000 = 0x7000 → decode w = .ok (.addVxKk x kk)) ∧ (w &&& 0xF00F = 0x8000 → decode w = .ok (.ldVxVy x y)) ∧
    (w &&& 0xF00F = 0x8001 → decode w = .ok (.orVxVy x y)) ∧ (w &&& 0xF00F = 0x8002 → decode w = .ok (.andVxVy x y)) ∧
    (w &&& 0xF00F = 0x8003 → decode w = .ok (.xorVxVy x y)) ∧ (w &&& 0xF00F = 0x8004 → decode w = .ok (.addVxVy x y)) ∧
    (w &&& 0xF00F = 0x8005 → decode w = .ok (.subVxVy x y)) ∧ (w &&& 0xF00F = 0x8006 → decode w = .ok (.shrVxVy x y)) ∧
    (w &&& 0xF00F = 0x8007 → decode w = .ok (.subnVxVy x y)) ∧ (w &&& 0xF00F = 0x800E → decode w = .ok (.shlVxVy x y)) ∧
    (w &&& 0xF00F = 0x9000 → decode w = .ok (.sneVxVy x y)) ∧ (w &&& 0xF000 = 0xA000 → decode w = .ok (.ldINnn nnn)) ∧
    (w &&& 0xF000 = 0xB000 → decode w = .ok (.jpV0Nnn nnn)) ∧ (w &&& 0xF000 = 0xC000 → decode w = .ok (.rndVxKk x kk)) ∧
    (w &&& 0xF000 = 0xD000 → decode w = .ok (.drwVxVyN x y n)) ∧ (w &&& 0xF0FF = 0xE09E → decode w = .ok (.skpVx x)) ∧
    (w &&& 0xF0FF = 0xE0A1 → decode w = .ok (.sknpVx x)) ∧ (w &&& 0xF0FF = 0xF007 → decode w = .ok (.ldVxDt x)) ∧
    (w &&& 0xF0FF = 0xF00A → decode w = .ok (.ldVxK x)) ∧ (w &&& 0xF0FF = 0xF015 → decode w = .ok (.ldDtVx x)) ∧
    (w &&& 0xF0FF = 0xF018 → decode w = .ok (.ldStVx x)) ∧ (w &&& 0xF0FF = 0xF01E → decode w = .ok (.addIVx x)) ∧
    (w &&& 0xF0FF = 0xF029 → decode w = .ok (.ldFVx x)) ∧ (w &&& 0xF0FF = 0xF033 → decode w = .ok (.ldBVx x)) ∧
    (w &&& 0xF0FF = 0xF055 → decode w = .ok (.ldMemVx x)) ∧ (w &&& 0xF0FF = 0xF065 → decode w = .ok (.ldVxMem x))) ∧
  opcodeMap.length = 34 ∧ opcodeMap.Pairwise (fun a b => ∀ w : Word, ¬(a.selects w = true ∧ b.selects w = true))

/-- The decoder rejects a word exactly when it is in one of the six families of undefined words, and those are exactly the words
that match no row. How strictly families 0, 5 and 9 are matched is the spec's decision D4 (log 10). -/
def Obligations.DecodeRefusesExactlyTheUndefinedWords : Prop :=
  ∀ w : Word, (decode w = .error (.undefinedWord w) ↔ w.undefined = true) ∧ (w.undefined = true ↔ w.wellFormed = false)

/-- Words written out bit by bit from the encodings of R74, one or more of each family, decode to the instruction they stand for. -/
def Obligations.WrittenOutWordsDecode : Prop :=
  decode 0b0000000011101110 = .ok .ret ∧ decode 0b0001101010111100 = .ok (.jpNnn 0xABC) ∧
  decode 0b0011101001111111 = .ok (.seVxKk 10 0x7F) ∧ decode 0b1000101010110111 = .ok (.subnVxVy 10 11) ∧
  decode 0b1101000100101111 = .ok (.drwVxVyN 1 2 15) ∧ decode 0b1110000010100001 = .ok (.sknpVx 0) ∧
  decode 0b1111111101100101 = .ok (.ldVxMem 15)

/-! ## The step -/

/-- In `Running`, with `PC` even and in `[0x200, 0xFFE]`, when the big-endian word at `PC` decodes to `i`, a `STEP` is `exec i` at that
same state: nothing is added around it (R77; the instruction itself moves `PC`, R78). -/
def Obligations.StepRunsTheDecodedInstruction : Prop :=
  ∀ (s : State) (i : Instr), s.run = .running → s.pc.toNat % 2 = 0 → 0x200 ≤ s.pc.toNat → s.pc.toNat ≤ 0xFFE →
    decode (BitVec.ofNat 16 ((s.mem.byte s.pc.toNat).toNat * 256 + (s.mem.byte (s.pc.toNat + 1)).toNat)) = .ok i →
    step s = exec i s

/-- In `Running`, `PC` odd, below `0x200` or above `0xFFE` raises `FetchFault` with no word, whatever memory holds. The fault is the
spec's decision D3, its upper bound conflict C1 (log 9). -/
def Obligations.BadPcRaisesFetchFault : Prop :=
  ∀ s : State, s.run = .running → s.pc.toNat % 2 = 1 ∨ s.pc.toNat < 0x200 ∨ s.pc.toNat > 0xFFE →
    step s = .next { s with run := .halted { kind := .fetchFault, pc := s.pc, word := none } }

/-- R181: a fetched word that matches no row of R74 raises `DecodeError` with `PC` and the word recorded. -/
def Obligations.UnrecognisedWordRaisesDecodeError : Prop :=
  ∀ (s : State) (w : Word), s.run = .running → fetchWord s = some w → (∀ r ∈ opcodeMap, w &&& r.mask ≠ r.pattern) →
    step s = .next { s with run := .halted { kind := .decodeError, pc := s.pc, word := some w } }

/-- A `STEP` in `Running` raises at most one fault, chosen in the order fetch, decode, execute, and records `PC` and the word; where no
check fails it ends in a next state that is not `Halted` (R188; the conditions themselves include the spec's D3, D4, D5, D8). -/
def Obligations.StepRaisesThePendingFaultOrCompletes : Prop :=
  ∀ s : State, s.run = .running →
    (∀ k, pendingFault s = some k →
      step s = .next { s with run := .halted { kind := k, pc := s.pc, word := fetchWord s } }) ∧
    (pendingFault s = none → ∃ t, step s = .next t ∧ t.Safe)

/-- R189: whenever a `STEP` enters `Halted(f)`, it does exactly that: the record holds `PC` and the fetched word (none for a
`FetchFault`), and nothing else changes. -/
def Obligations.FaultEntryChangesOnlyTheRunState : Prop :=
  ∀ (s t : State) (f : FaultRecord), s.Safe → step s = .next t → t.run = .halted f →
    t = { s with run := .halted f } ∧ f.pc = s.pc ∧ f.word = fetchWord s ∧ (f.word = none ↔ f.kind = .fetchFault)

/-- In `Halted(f)` a `STEP` changes nothing, the other events act as always, and the only event that leaves `Halted` is a `LOAD` of
at most `0xE00` bytes (R191, R192). What events do while `Halted` is the spec's decision D14 (log 20). -/
def Obligations.OnlyLoadLeavesHalted : Prop :=
  ∀ (s : State) (f : FaultRecord), s.run = .halted f →
    step s = .next s ∧
    ∀ (e : Event) (t : State) (r : Reply), State.event e s = .next (t, r) →
      t.run = .halted f ∨ ∃ bytes q, e = .load bytes q ∧ bytes.length ≤ 0xE00 ∧ r = .done ∧ t.run = .running

/-- R163: a `STEP` in `AwaitingKey(t)` changes nothing while every key is up; with a key down it writes the index of one such key to
`V[t]`, returns to `Running` and moves `PC` on by 2, and changes nothing else (but the count of draws, the model's own). -/
def Obligations.KeyPollCompletesOnAnyKeyDown : Prop :=
  ∀ (s : State) (t : Reg), s.run = .awaitingKey t →
    ((∀ k : Fin 16, s.key[k.val] = false) → step s = .next s) ∧
    ((∃ k : Fin 16, s.key[k.val] = true) →
      ∃ (u : State) (k : Fin 16), step s = .next u ∧ s.key[k.val] = true ∧ (u.vreg t).toNat = k.val ∧ u.run = .running ∧
        u.pc = s.pc + 2 ∧ OnlyListed [.vreg t, .run, .pc, .draws] s u)

/-- Under the spec's default `KEY_SELECT` the key reported is the least index that is down; with exactly one key down it is that key
under every choice. The default is the spec's decision D9 (log 7). -/
def Obligations.KeySelectReportsTheLeastKeyByDefault : Prop :=
  ∀ (s u : State) (t : Reg) (k : Fin 16), s.run = .awaitingKey t → step s = .next u → s.key[k.val] = true →
    (s.params.keySelect = .least → (∀ j : Fin 16, j.val < k.val → s.key[j.val] = false) → (u.vreg t).toNat = k.val) ∧
    ((∀ j : Fin 16, j ≠ k → s.key[j.val] = false) → (u.vreg t).toNat = k.val)

/-! ## Every instruction: where it completes, what it writes, where `PC` goes -/

/-- Every instruction answers a next state from every state and operands. Where its fault condition (R180, R188) fails, it runs: `run`
is as before, or `AwaitingKey(x)` after `Fx0A`. Where it holds, the fault is entered with nothing else changed (R189), the word
recorded being the instruction's own. The conditions of `AddressFault` and `KeyIndexFault` are the spec's D5 and D8 (log 11,
log 14). -/
def Obligations.EveryInstructionRunsUnlessItsFaultConditionHolds : Prop :=
  ∀ (i : Instr) (s : State),
    (faultOf i s = none → ∃ t, exec i s = .next t ∧ ((∀ x, i ≠ .ldVxK x) → t.run = s.run) ∧
      (∀ x, i = .ldVxK x → t.run = .awaitingKey x)) ∧
    (∀ k, faultOf i s = some k →
      exec i s = .next { s with run := .halted { kind := k, pc := s.pc, word := some (encode i) } })

/-- R78: `PC` after an instruction, row by row of its table. The `STEP` that completes an `Fx0A` is the table's second part of that
row. -/
def Obligations.PcAfterEachInstruction : Prop :=
  (∀ (i : Instr) (s t : State), exec i s = .next t →
    (faultOf i s ≠ none → t.pc = s.pc) ∧
    (faultOf i s = none →
      match i with
      | .jpNnn nnn | .callNnn nnn => t.pc.toNat = nnn.toNat
      | .ret => ∀ j : Fin 16, j.val + 1 = s.sp.val → t.pc = s.stack[j.val]
      | .jpV0Nnn nnn => t.pc.toNat = nnn.toNat + (s.vreg 0).toNat
      | .seVxKk x kk => t.pc = if s.vreg x = kk then s.pc + 4 else s.pc + 2
      | .sneVxKk x kk => t.pc = if s.vreg x ≠ kk then s.pc + 4 else s.pc + 2
      | .seVxVy x y => t.pc = if s.vreg x = s.vreg y then s.pc + 4 else s.pc + 2
      | .sneVxVy x y => t.pc = if s.vreg x ≠ s.vreg y then s.pc + 4 else s.pc + 2
      | .skpVx x => ∀ k : Fin 16, (s.vreg x).toNat = k.val → t.pc = if s.key[k.val] = true then s.pc + 4 else s.pc + 2
      | .sknpVx x => ∀ k : Fin 16, (s.vreg x).toNat = k.val → t.pc = if s.key[k.val] = false then s.pc + 4 else s.pc + 2
      | .ldVxK _ => t.pc = s.pc
      | _ => t.pc = s.pc + 2)) ∧
  (∀ (nnn : Addr12) (s t : State), exec (.callNnn nnn) s = .next t → faultOf (.callNnn nnn) s = none →
    ∀ j : Fin 16, j.val = s.sp.val → t.stack[j.val] = s.pc + 2) ∧
  (∀ (x : Reg) (s t : State), s.run = .awaitingKey x → step s = .next t → (∃ k : Fin 16, s.key[k.val] = true) → t.pc = s.pc + 2)

/-- R36: the writers of each component. An instruction that runs writes only what R36 lists for it, one that faults only `run`; the
completion of `AwaitingKey(t)` only `V[t]`, `PC` and `run` (and the model's count of draws); each host event only what R36 lists
for it. -/
def Obligations.OnlyTheListedWritersWrite : Prop :=
  (∀ (i : Instr) (s t : State), exec i s = .next t →
    (faultOf i s = none → OnlyChanges (mayWrite i s) s t) ∧ (faultOf i s ≠ none → OnlyListed [.run] s t)) ∧
  (∀ (s t : State) (x : Reg), s.run = .awaitingKey x → step s = .next t → OnlyListed [.vreg x, .pc, .run, .draws] s t) ∧
  (∀ (e : Event) (s t : State) (r : Reply), e ≠ .step → State.event e s = .next (t, r) → OnlyChanges (eventMayWrite e) s t)

/-! ## Control transfer -/

/-- R90: with an entry on the stack, `00EE` completes: `PC` is the popped value as it is and `SP` is one less, the entry left in
place; with `SP = 0` it raises `StackUnderflow` and nothing else changes. -/
def Obligations.RetPopsTheReturnAddress : Prop :=
  ∀ s : State,
    (∀ j : Fin 16, j.val + 1 = s.sp.val → ∃ t, exec .ret s = .next t ∧ t.pc = s.stack[j.val] ∧ t.sp.val = j.val ∧
      OnlyListed [.pc, .sp] s t) ∧
    (s.sp.val = 0 →
      exec .ret s = .next { s with run := .halted { kind := .stackUnderflow, pc := s.pc, word := some 0x00EE } })

/-- R92: with `SP < 16`, `2nnn` completes: the entry at `SP` is `PC0 + 2`, `SP` is one more, `PC` is `nnn`; with `SP = 16` it raises
`StackOverflow` and nothing else changes. -/
def Obligations.CallPushesTheReturnAddress : Prop :=
  ∀ (s : State) (nnn : Addr12),
    (∀ j : Fin 16, j.val = s.sp.val → ∃ t, exec (.callNnn nnn) s = .next t ∧ t.stack[j.val] = s.pc + 2 ∧
      t.sp.val = s.sp.val + 1 ∧ t.pc.toNat = nnn.toNat ∧ OnlyListed [.pc, .sp, .stackEntry j] s t) ∧
    (s.sp.val = 16 → exec (.callNnn nnn) s =
      .next { s with run := .halted { kind := .stackOverflow, pc := s.pc, word := some (0x2000 ||| nnn.setWidth 16) } })

/-- A call and then a return come back to `PC0 + 2` with the stack as deep as before and, beside the pushed entry, nothing changed: the
stack is last-in first-out (R25, R90, R92; the index convention is the spec's D23, log 19). -/
def Obligations.CallThenReturnComesBack : Prop :=
  ∀ (s : State) (nnn : Addr12) (j : Fin 16), j.val = s.sp.val →
    ∃ t u, exec (.callNnn nnn) s = .next t ∧ exec .ret t = .next u ∧ u.pc = s.pc + 2 ∧
      OnlyListed [.pc, .stackEntry j] s u

/-- R91, R97: both jumps complete from every state; `PC` is `nnn`, or `V0 + nnn` with no reduction; nothing else changes. -/
def Obligations.JumpsWriteTheTargetUnchecked : Prop :=
  ∀ (s : State) (nnn : Addr12),
    (∃ t, exec (.jpNnn nnn) s = .next t ∧ t.pc.toNat = nnn.toNat ∧ OnlyListed [.pc] s t) ∧
    (∃ t, exec (.jpV0Nnn nnn) s = .next t ∧ t.pc.toNat = nnn.toNat + (s.vreg 0).toNat ∧ OnlyListed [.pc] s t)

/-- R93 to R96: the four register skips complete from every state; `PC` moves by 4 if the condition holds, else by 2; no register and
nothing else is written. -/
def Obligations.RegisterSkipsMovePcByTwoOrFour : Prop :=
  ∀ (s : State) (x y : Reg) (kk : Byte),
    (∃ t, exec (.seVxKk x kk) s = .next t ∧ t.pc = s.pc + (if s.vreg x = kk then 4 else 2) ∧ OnlyListed [.pc] s t) ∧
    (∃ t, exec (.sneVxKk x kk) s = .next t ∧ t.pc = s.pc + (if s.vreg x = kk then 2 else 4) ∧ OnlyListed [.pc] s t) ∧
    (∃ t, exec (.seVxVy x y) s = .next t ∧ t.pc = s.pc + (if s.vreg x = s.vreg y then 4 else 2) ∧ OnlyListed [.pc] s t) ∧
    (∃ t, exec (.sneVxVy x y) s = .next t ∧ t.pc = s.pc + (if s.vreg x = s.vreg y then 2 else 4) ∧ OnlyListed [.pc] s t)

/-! ## Register load, arithmetic, logic, shifts, random -/

/-- R110 to R115: load immediate, add immediate (modulo 256, no flag), copy, OR, AND, XOR complete from every state with the value
written to `V[x]`, `PC` moved by 2 and nothing else changed; so VF changes only as `x`. -/
def Obligations.FlaglessRegisterInstructions : Prop :=
  ∀ (s : State) (x y : Reg) (kk : Byte),
    (∃ t, exec (.ldVxKk x kk) s = .next t ∧ t.vreg x = kk ∧ t.pc = s.pc + 2 ∧ OnlyListed [.vreg x, .pc] s t) ∧
    (∃ t, exec (.addVxKk x kk) s = .next t ∧ (t.vreg x).toNat = ((s.vreg x).toNat + kk.toNat) % 256 ∧ t.pc = s.pc + 2 ∧
      OnlyListed [.vreg x, .pc] s t) ∧
    (∃ t, exec (.ldVxVy x y) s = .next t ∧ t.vreg x = s.vreg y ∧ t.pc = s.pc + 2 ∧ OnlyListed [.vreg x, .pc] s t) ∧
    (∃ t, exec (.orVxVy x y) s = .next t ∧ t.vreg x = s.vreg x ||| s.vreg y ∧ t.pc = s.pc + 2 ∧
      OnlyListed [.vreg x, .pc] s t) ∧
    (∃ t, exec (.andVxVy x y) s = .next t ∧ t.vreg x = s.vreg x &&& s.vreg y ∧ t.pc = s.pc + 2 ∧
      OnlyListed [.vreg x, .pc] s t) ∧
    (∃ t, exec (.xorVxVy x y) s = .next t ∧ t.vreg x = s.vreg x ^^^ s.vreg y ∧ t.pc = s.pc + 2 ∧
      OnlyListed [.vreg x, .pc] s t)

/-- R116, R117, R119 where neither `x` nor `y` is F (those forms: `VfAsOperandOfAFlagWriter`): the true sum or difference modulo 256,
and VF the carry or the no-borrow, equality counting as no borrow. -/
def Obligations.AddAndSubtractWriteResultAndFlag : Prop :=
  ∀ (s : State) (x y : Reg), x ≠ regF → y ≠ regF →
    (∃ t, exec (.addVxVy x y) s = .next t ∧ (t.vreg x).toNat = ((s.vreg x).toNat + (s.vreg y).toNat) % 256 ∧
      (t.vreg regF).toNat = (if (s.vreg x).toNat + (s.vreg y).toNat > 255 then 1 else 0) ∧ t.pc = s.pc + 2 ∧
      OnlyListed [.vreg x, .vreg regF, .pc] s t) ∧
    (∃ t, exec (.subVxVy x y) s = .next t ∧ ((t.vreg x).toNat : Int) = ((s.vreg x).toNat - (s.vreg y).toNat : Int) % 256 ∧
      (t.vreg regF).toNat = (if (s.vreg x).toNat < (s.vreg y).toNat then 0 else 1) ∧ t.pc = s.pc + 2 ∧
      OnlyListed [.vreg x, .vreg regF, .pc] s t) ∧
    (∃ t, exec (.subnVxVy x y) s = .next t ∧ ((t.vreg x).toNat : Int) = ((s.vreg y).toNat - (s.vreg x).toNat : Int) % 256 ∧
      (t.vreg regF).toNat = (if (s.vreg y).toNat < (s.vreg x).toNat then 0 else 1) ∧ t.pc = s.pc + 2 ∧
      OnlyListed [.vreg x, .vreg regF, .pc] s t)

/-- R118, R120 where neither `x` nor `y` is F: the source is `V[x]` under `shiftUsesVx`, else `V[y]`; the result is the source halved,
or doubled modulo 256, and VF is the bit shifted out, bit 0 or bit 7. -/
def Obligations.ShiftsByOneWriteResultAndLostBit : Prop :=
  ∀ (s : State) (x y : Reg), x ≠ regF → y ≠ regF →
    let src := if s.quirks.shiftUsesVx = true then (s.vreg x).toNat else (s.vreg y).toNat
    (∃ t, exec (.shrVxVy x y) s = .next t ∧ (t.vreg x).toNat = src / 2 ∧ (t.vreg regF).toNat = src % 2 ∧ t.pc = s.pc + 2 ∧
      OnlyListed [.vreg x, .vreg regF, .pc] s t) ∧
    (∃ t, exec (.shlVxVy x y) s = .next t ∧ (t.vreg x).toNat = src * 2 % 256 ∧ (t.vreg regF).toNat = src / 128 ∧
      t.pc = s.pc + 2 ∧ OnlyListed [.vreg x, .vreg regF, .pc] s t)

/-- R123, the spec's reading by decision D7 (log 13): operands are the values before the instruction; with `x = F` VF ends as the
result, and with `y = F`, `x` not F, `V[x]` is computed from the old VF and VF is the flag. -/
def Obligations.VfAsOperandOfAFlagWriter : Prop :=
  ∀ (s : State) (x y : Reg), x = regF ∨ y = regF →
    let a := (s.vreg x).toNat
    let b := (s.vreg y).toNat
    let src := if s.quirks.shiftUsesVx = true then a else b
    (∃ t, exec (.addVxVy x y) s = .next t ∧ (t.vreg x).toNat = (a + b) % 256 ∧
      (x ≠ regF → (t.vreg regF).toNat = (a + b) / 256) ∧ t.pc = s.pc + 2 ∧ OnlyListed [.vreg x, .vreg regF, .pc] s t) ∧
    (∃ t, exec (.subVxVy x y) s = .next t ∧ (t.vreg x).toNat = (a + 256 - b) % 256 ∧
      (x ≠ regF → (t.vreg regF).toNat = (a + 256 - b) / 256) ∧ t.pc = s.pc + 2 ∧
      OnlyListed [.vreg x, .vreg regF, .pc] s t) ∧
    (∃ t, exec (.subnVxVy x y) s = .next t ∧ (t.vreg x).toNat = (b + 256 - a) % 256 ∧
      (x ≠ regF → (t.vreg regF).toNat = (b + 256 - a) / 256) ∧ t.pc = s.pc + 2 ∧
      OnlyListed [.vreg x, .vreg regF, .pc] s t) ∧
    (∃ t, exec (.shrVxVy x y) s = .next t ∧ (t.vreg x).toNat = src / 2 ∧ (x ≠ regF → (t.vreg regF).toNat = src % 2) ∧
      t.pc = s.pc + 2 ∧ OnlyListed [.vreg x, .vreg regF, .pc] s t) ∧
    (∃ t, exec (.shlVxVy x y) s = .next t ∧ (t.vreg x).toNat = src * 2 % 256 ∧
      (x ≠ regF → (t.vreg regF).toNat = src / 128) ∧ t.pc = s.pc + 2 ∧ OnlyListed [.vreg x, .vreg regF, .pc] s t)

/-- `Cxkk` completes from every state: `V[x]` is `kk` masked with some byte, so it has no bit that `kk` has not, and with `kk = 0` it is
0; VF is no flag here. The byte is a free value, the spec's decision D12 (log 8). -/
def Obligations.RandomIsMasked : Prop :=
  ∀ (s : State) (x : Reg) (kk : Byte),
    ∃ (t : State) (r : Byte), exec (.rndVxKk x kk) s = .next t ∧ t.vreg x = kk &&& r ∧ t.vreg x &&& ~~~kk = 0 ∧
      (kk = 0 → t.vreg x = 0) ∧ t.pc = s.pc + 2 ∧ t.draws = s.draws + 1 ∧ OnlyListed [.vreg x, .pc, .draws] s t

/-! ## Index register and memory -/

/-- R130, R132: `Annn` and `Fx29` complete from every state; `I` is `nnn`, or five times the whole of `V[x]`. -/
def Obligations.IndexLoads : Prop :=
  ∀ (s : State) (nnn : Addr12) (x : Reg),
    (∃ t, exec (.ldINnn nnn) s = .next t ∧ t.i.toNat = nnn.toNat ∧ t.pc = s.pc + 2 ∧ OnlyListed [.index, .pc] s t) ∧
    (∃ t, exec (.ldFVx x) s = .next t ∧ t.i.toNat = (s.vreg x).toNat * 5 ∧ t.pc = s.pc + 2 ∧ OnlyListed [.index, .pc] s t)

/-- `Fx1E` completes from every state: `I` is the sum modulo 65536, and VF is not written. That `I` is kept in 16 bits and wraps is the
spec's decision D6 (log 12). -/
def Obligations.AddToIndexWrapsWithoutFlag : Prop :=
  ∀ (s : State) (x : Reg),
    ∃ t, exec (.addIVx x) s = .next t ∧ t.i.toNat = (s.i.toNat + (s.vreg x).toNat) % 65536 ∧ t.pc = s.pc + 2 ∧
      OnlyListed [.index, .pc] s t

/-- `Fx33`: with `I + 2 <= 0xFFF` it completes, the three bytes from `dataAddress` are the decimal digits of `V[x]`, each 0 to 9, and
every other byte reads as before; else it raises `AddressFault`, the spec's decision D5 (log 11), and no byte is written. -/
def Obligations.BcdStoresThreeDigits : Prop :=
  ∀ (s : State) (x : Reg),
    (s.i.toNat + 2 ≤ 0xFFF → ∃ t, exec (.ldBVx x) s = .next t ∧
      (t.mem.byte (dataAddress s)).toNat * 100 + (t.mem.byte (dataAddress s + 1)).toNat * 10 +
        (t.mem.byte (dataAddress s + 2)).toNat = (s.vreg x).toNat ∧
      (t.mem.byte (dataAddress s)).toNat ≤ 2 ∧ (t.mem.byte (dataAddress s + 1)).toNat ≤ 9 ∧
      (t.mem.byte (dataAddress s + 2)).toNat ≤ 9 ∧ t.pc = s.pc + 2 ∧ dataAddress s = s.i.toNat ∧
      (∀ a, a < dataAddress s ∨ dataAddress s + 3 ≤ a → t.mem.byte a = s.mem.byte a) ∧
      OnlyChanges (fun c => c = .pc ∨ ∃ a, c = .memByte a) s t) ∧
    (s.i.toNat + 2 > 0xFFF → exec (.ldBVx x) s =
      .next { s with run := .halted { kind := .addressFault, pc := s.pc, word := some (encode (.ldBVx x)) } })

/-- `Fx55`: with `I + x <= 0xFFF` it completes, the byte at `dataAddress + j` is `V[j]` for `j` in 0..x, every other byte reads as before,
and `I` is increased by `x + 1` modulo 65536 exactly under `loadStoreIncrementsI`; else `AddressFault`, the spec's decision D5
(log 11), with no partial store. -/
def Obligations.BulkStoreWritesV0ToVx : Prop :=
  ∀ (s : State) (x : Reg),
    (s.i.toNat + x.val ≤ 0xFFF → ∃ t, exec (.ldMemVx x) s = .next t ∧
      (∀ j : Reg, j.val ≤ x.val → t.mem.byte (dataAddress s + j.val) = s.vreg j) ∧ dataAddress s = s.i.toNat ∧
      (∀ a, a < dataAddress s ∨ dataAddress s + x.val + 1 ≤ a → t.mem.byte a = s.mem.byte a) ∧
      t.i.toNat = (if s.quirks.loadStoreIncrementsI = true then (s.i.toNat + x.val + 1) % 65536 else s.i.toNat) ∧
      t.pc = s.pc + 2 ∧ OnlyChanges (fun c => c = .pc ∨ c = .index ∨ ∃ a, c = .memByte a) s t) ∧
    (s.i.toNat + x.val > 0xFFF → exec (.ldMemVx x) s =
      .next { s with run := .halted { kind := .addressFault, pc := s.pc, word := some (encode (.ldMemVx x)) } })

/-- `Fx65`: with `I + x <= 0xFFF` it completes, `V[j]` is the byte at `I + j` for `j` in 0..x, registers above `x` and all of memory are as
before, and `I` is increased as in `Fx55`; else `AddressFault`, the spec's decision D5 (log 11), with no register written. -/
def Obligations.BulkLoadReadsV0ToVx : Prop :=
  ∀ (s : State) (x : Reg),
    (s.i.toNat + x.val ≤ 0xFFF → ∃ t, exec (.ldVxMem x) s = .next t ∧
      (∀ j : Reg, j.val ≤ x.val → t.vreg j = s.mem.byte (s.i.toNat + j.val)) ∧
      (∀ j : Reg, x.val < j.val → t.vreg j = s.vreg j) ∧ (∀ a, t.mem.byte a = s.mem.byte a) ∧
      t.i.toNat = (if s.quirks.loadStoreIncrementsI = true then (s.i.toNat + x.val + 1) % 65536 else s.i.toNat) ∧
      t.pc = s.pc + 2 ∧ OnlyChanges (fun c => c = .pc ∨ c = .index ∨ ∃ j, c = .vreg j) s t) ∧
    (s.i.toNat + x.val > 0xFFF → exec (.ldVxMem x) s =
      .next { s with run := .halted { kind := .addressFault, pc := s.pc, word := some (encode (.ldVxMem x)) } })

/-- What a bulk store wrote, a bulk load from the same `I` reads back, whatever the registers held in between (R134, R135). -/
def Obligations.BulkLoadUndoesBulkStore : Prop :=
  ∀ (s t : State) (x : Reg) (w : Vector Byte 16), s.i.toNat + x.val ≤ 0xFFF → exec (.ldMemVx x) s = .next t →
    ∃ u, exec (.ldVxMem x) { t with v := w, i := s.i } = .next u ∧ ∀ j : Reg, j.val ≤ x.val → u.vreg j = s.vreg j

/-- Self-modifying code (R60): when a bulk store writes the two bytes that `PC` will be at, the very next fetch reads the stored bytes,
`V0` the high one. -/
def Obligations.NextFetchSeesTheStore : Prop :=
  ∀ (s t : State) (x : Reg), s.i.toNat + x.val ≤ 0xFFF → 1 ≤ x.val → exec (.ldMemVx x) s = .next t →
    t.pc.toNat = s.i.toNat → t.pc.toNat % 2 = 0 → 0x200 ≤ t.pc.toNat →
    ∃ w, fetchWord t = some w ∧ w.toNat = (s.vreg 0).toNat * 256 + (s.vreg 1).toNat

/-! ## Display -/

/-- `00E0` completes from every state: all 2048 cells are 0, `PC` moves by 2, nothing else changes, VF and `dirty` included; that `dirty`
is unchanged is the spec's decision D22 (log 18). -/
def Obligations.ClearTurnsEveryCellOff : Prop :=
  ∀ s : State, ∃ t, exec .cls s = .next t ∧ (∀ p, Display.cell t.disp p = false) ∧ t.pc = s.pc + 2 ∧
    OnlyChanges (fun c => c = .pc ∨ ∃ p, c = .cell p) s t

/-- `Dxyn` with its origin off-screen, judged on the whole register values, completes whatever `I` and `n` are: VF becomes 0, `PC` moves by
2, and nothing else changes, the grid and `dirty` included. This is the spec's decision D10, conflict C3 (log 15). -/
def Obligations.OffScreenDrawOnlyClearsVf : Prop :=
  ∀ (s : State) (x y : Reg) (n : Fin 16), (s.vreg x).toNat > 63 ∨ (s.vreg y).toNat > 31 →
    ∃ t, exec (.drwVxVyN x y n) s = .next t ∧ t.vreg regF = 0 ∧ t.pc = s.pc + 2 ∧ OnlyListed [.vreg regF, .pc] s t

/-- `Dxyn` with its origin on-screen and its bytes in memory completes, also with `n = 0` and with `x` or `y` F: each cell is flipped
exactly where the sprite covers it with a 1 bit (under the launch's edge policy), VF is 1 exactly when some flipped cell was lit, else
0, `dirty` is 1, and nothing else but `PC` changes. With a byte above `0xFFF` it raises `AddressFault`. The bit order, the edge
policy and the fault are the spec's decisions D18, D11, D5, the latching D7 (log 16, 6, 11, 13). -/
def Obligations.DrawFlipsExactlyTheCoveredCells : Prop :=
  ∀ (s : State) (x y : Reg) (n : Fin 16), (s.vreg x).toNat ≤ 63 → (s.vreg y).toNat ≤ 31 →
    let covers := spriteCovers s.params.edgePolicy s.mem s.i.toNat n.val (s.vreg x).toNat (s.vreg y).toNat
    (n.val = 0 ∨ s.i.toNat + n.val - 1 ≤ 0xFFF → ∃ t, exec (.drwVxVyN x y n) s = .next t ∧
      (∀ p, Display.cell t.disp p = (Display.cell s.disp p ^^ covers p)) ∧
      ((∃ p, covers p = true ∧ Display.cell s.disp p = true) → t.vreg regF = 1) ∧
      ((∀ p, covers p = true → Display.cell s.disp p = false) → t.vreg regF = 0) ∧
      t.dirty = true ∧ t.pc = s.pc + 2 ∧
      OnlyChanges (fun c => c = .pc ∨ c = .dirty ∨ c = .vreg regF ∨ ∃ p, c = .cell p) s t) ∧
    (n.val ≥ 1 ∧ s.i.toNat + n.val - 1 > 0xFFF → exec (.drwVxVyN x y n) s =
      .next { s with run := .halted { kind := .addressFault, pc := s.pc, word := some (encode (.drwVxVyN x y n)) } })

/-- Two draws of the same sprite at the same place restore the grid, from any grid and under either edge policy; the second reports
VF = 1 exactly when it turns some cell off, that is when some covered cell was 0 before the first. From a clear grid this is R151 (g)
in its own words, "the second draw reports VF = 1 if the sprite has any visible 1 bit", the first having reported 0 (log 30). -/
def Obligations.DrawingTwiceRestoresTheGrid : Prop :=
  ∀ (s t u : State) (x y : Reg) (n : Fin 16), x ≠ regF → y ≠ regF → faultOf (.drwVxVyN x y n) s = none →
    (s.vreg x).toNat ≤ 63 → (s.vreg y).toNat ≤ 31 →
    exec (.drwVxVyN x y n) s = .next t → exec (.drwVxVyN x y n) t = .next u →
    u.disp = s.disp ∧
      ((∃ p, Display.cell s.disp p = false ∧ Display.cell t.disp p = true) → u.vreg regF = 1) ∧
      ((∀ p, Display.cell t.disp p = true → Display.cell s.disp p = true) → u.vreg regF = 0) ∧
      ((∀ p, Display.cell s.disp p = false) → t.vreg regF = 0)

/-! ## Keypad and timers -/

/-- `Ex9E` and `ExA1`: with `V[x] <= 15` they complete, `PC` moving by 4 exactly when the key `V[x]` is down (up), else by 2, and nothing
else changes; with `V[x] > 15` they raise `KeyIndexFault`, the spec's decision D8 (log 14). -/
def Obligations.KeySkipsTestTheKeyLevel : Prop :=
  ∀ (s : State) (x : Reg),
    (∀ k : Fin 16, (s.vreg x).toNat = k.val →
      (∃ t, exec (.skpVx x) s = .next t ∧ t.pc = s.pc + (if s.key[k.val] = true then 4 else 2) ∧ OnlyListed [.pc] s t) ∧
      (∃ t, exec (.sknpVx x) s = .next t ∧ t.pc = s.pc + (if s.key[k.val] = true then 2 else 4) ∧ OnlyListed [.pc] s t)) ∧
    ((s.vreg x).toNat > 15 →
      exec (.skpVx x) s =
        .next { s with run := .halted { kind := .keyIndexFault, pc := s.pc, word := some (encode (.skpVx x)) } } ∧
      exec (.sknpVx x) s =
        .next { s with run := .halted { kind := .keyIndexFault, pc := s.pc, word := some (encode (.sknpVx x)) } })

/-- R162: `Fx0A` completes its own `STEP` from every state by entering `AwaitingKey(x)`: `PC`, V, the keypad and everything else are
unchanged, whatever keys are down. -/
def Obligations.KeyWaitOnlyEntersAwaitingKey : Prop :=
  ∀ (s : State) (x : Reg), ∃ t, exec (.ldVxK x) s = .next t ∧ t.run = .awaitingKey x ∧ OnlyListed [.run] s t

/-- R165 to R167: the timer instructions complete from every state: `V[x]` is `DT`, `DT` is `V[x]`, `ST` is `V[x]`; nothing else but `PC`
changes. -/
def Obligations.TimerInstructionsCopy : Prop :=
  ∀ (s : State) (x : Reg),
    (∃ t, exec (.ldVxDt x) s = .next t ∧ t.vreg x = s.dt ∧ t.pc = s.pc + 2 ∧ OnlyListed [.vreg x, .pc] s t) ∧
    (∃ t, exec (.ldDtVx x) s = .next t ∧ t.dt = s.vreg x ∧ t.pc = s.pc + 2 ∧ OnlyListed [.dt, .pc] s t) ∧
    (∃ t, exec (.ldStVx x) s = .next t ∧ t.st = s.vreg x ∧ t.pc = s.pc + 2 ∧ OnlyListed [.st, .pc] s t)

/-- After `n` `TICK`s each timer is `n` lower, never below 0, and nothing else has changed, in any run state (R168; that it acts in every
run state is the spec's decision D14, log 20). -/
def Obligations.TicksCountBothTimersDown : Prop :=
  ∀ (n : Nat) (s : State),
    (tick^[n] s).dt.toNat = s.dt.toNat - n ∧ (tick^[n] s).st.toNat = s.st.toNat - n ∧ OnlyListed [.dt, .st] s (tick^[n] s)

/-- R169: `ISSOUNDACTIVE` returns `ST > 0` and changes nothing. -/
def Obligations.SoundIsActiveWhileStIsPositive : Prop :=
  ∀ s : State, ∃ b, State.event .isSoundActive s = .next (s, .bit b) ∧ (b = true ↔ 0 < s.st.toNat)

/-- R170: `SETKEY(k, down)` sets that one latch and changes nothing else; in particular it does not complete an `Fx0A`. -/
def Obligations.SetKeyWritesOneLatch : Prop :=
  ∀ (s : State) (k : Fin 16) (down : Bool), ∃ t, State.event (.setKey k down) s = .next (t, .done) ∧ t.key[k.val] = down ∧
    OnlyListed [.key k] s t

/-- R154: `GETFRAME` returns the 64 by 32 grid, `frame[r][c] = disp[r][c]`, `ISDIRTY` returns `dirty`, both changing nothing;
`CLEARDIRTY` sets `dirty` to 0 and changes nothing else. -/
def Obligations.RendererReadsTheGridAndClearsDirty : Prop :=
  ∀ s : State,
    (∃ rows : List (List Bool), State.event .getFrame s = .next (s, .frame rows) ∧ rows.length = 32 ∧
      ∀ p : Fin 32 × Fin 64, ∃ row, rows[p.1.val]? = some row ∧ row.length = 64 ∧
        row[p.2.val]? = some (Display.cell s.disp p)) ∧
    State.event .isDirty s = .next (s, .bit s.dirty) ∧
    ∃ t, State.event .clearDirty s = .next (t, .done) ∧ t.dirty = false ∧ OnlyListed [.dirty] s t

/-! ## Load, construction, end of a run -/

/-- `LOAD` of at most `0xE00` bytes, from any run state: every register, `I`, timer, stack entry, cell, key and the dirty flag is 0, `PC` is
`0x200`, `run` is `Running`, the quirk pair is the one given, the program stands at `0x200`, and every other byte of memory is kept.
That memory outside the program is kept and that `run` becomes `Running` are the spec's decisions D2 and D13 (log 21). -/
def Obligations.LoadResetsTheMachine : Prop :=
  ∀ (s : State) (bytes : List Byte) (q : Quirks), bytes.length ≤ 0xE00 →
    ∃ t, State.event (.load bytes q) s = .next (t, .done) ∧ (∀ r, t.vreg r = 0) ∧ t.i = 0 ∧ t.pc = 0x200 ∧
      (∀ j : Fin 16, t.stack[j.val] = 0) ∧ t.sp = 0 ∧ t.dt = 0 ∧ t.st = 0 ∧ (∀ p, Display.cell t.disp p = false) ∧
      t.dirty = false ∧ (∀ k : Fin 16, t.key[k.val] = false) ∧ t.quirks = q ∧ t.run = .running ∧
      (∀ (j : Nat) (h : j < bytes.length), t.mem.byte (0x200 + j) = bytes[j]) ∧
      (∀ a, a < 0x200 ∨ 0x200 + bytes.length ≤ a → t.mem.byte a = s.mem.byte a)

/-- `State.reset` is the state after a first `LOAD` of no bytes on a machine just constructed (R37, R210, R211), every register, timer,
key and cell at the value R37 gives. That memory reads `FONT` below `0x050` and zero above, and the quirk pair, are defaults the model
or the spec chose (log 3, log 4, log 5). -/
def Obligations.ResetIsTheLaunchState : Prop :=
  System.event (.load [] State.reset.quirks) (System.powerOn Config.defaultLaunch) = .next (.launched State.reset, .done) ∧
  (∀ r, State.reset.vreg r = 0) ∧ State.reset.i = 0 ∧ State.reset.pc = 0x200 ∧ State.reset.sp = 0 ∧ State.reset.dt = 0 ∧
  State.reset.st = 0 ∧ (∀ p, Display.cell State.reset.disp p = false) ∧ State.reset.dirty = false ∧
  (∀ k : Fin 16, State.reset.key[k.val] = false) ∧ State.reset.run = .running ∧
  (∀ (a : Nat) (h : a < Config.defaultFont.length), State.reset.mem.byte a = Config.defaultFont[a]) ∧
  (∀ a, 0x50 ≤ a → State.reset.mem.byte a = 0)

/-- After construction with any `FONT`, `MEM_INIT` and parameters and a first `LOAD` of at most `0xE00` bytes: memory holds `FONT` below
`0x050`, the program from `0x200` on, and `MEM_INIT` at every other address up to `0xFFF` (R37, R51, R210). That the two are arguments
and that `LOAD` clears nothing are the spec's decisions D1, D19 and D2 (log 4, log 5, log 21). -/
def Obligations.FirstLoadLeavesFontProgramAndMemInit : Prop :=
  ∀ (l : Launch) (bytes : List Byte) (q : Quirks), bytes.length ≤ 0xE00 →
    ∃ s, System.event (.load bytes q) (System.powerOn l) = .next (.launched s, .done) ∧ s.params = l.params ∧
      (∀ j : Fin 80, s.mem.byte j.val = l.font[j.val]) ∧
      (∀ (j : Nat) (h : j < bytes.length), s.mem.byte (0x200 + j) = bytes[j]) ∧
      (∀ j : Fin 0xFB0, 0x50 + j.val < 0x200 ∨ 0x200 + bytes.length ≤ 0x50 + j.val →
        s.mem.byte (0x50 + j.val) = l.memInit[j.val])

/-- R187: a `LOAD` of more than `0xE00` bytes fails with `RomTooLarge` and no part of the machine state changes, `run` included, on a
launched machine and on one just constructed; a length of exactly `0xE00` is accepted. -/
def Obligations.TooLargeLoadChangesNothing : Prop :=
  ∀ (s : State) (bytes : List Byte) (q : Quirks),
    (bytes.length > 0xE00 → State.event (.load bytes q) s = .next (s, .romTooLarge) ∧
      ∀ (mem : Memory) (params : Params),
        System.event (.load bytes q) (.constructed mem params) = .next (.constructed mem params, .romTooLarge)) ∧
    (bytes.length = 0xE00 → ∃ t, State.event (.load bytes q) s = .next (t, .done))

/-- R212: the first word fetched after a `LOAD` is `bytes[0] * 256 + bytes[1]`, at `0x200`. -/
def Obligations.FirstFetchAfterLoadIsTheFirstWord : Prop :=
  ∀ (s t : State) (b0 b1 : Byte) (rest : List Byte) (q : Quirks), load (b0 :: b1 :: rest) q s = some t →
    t.pc = 0x200 ∧ ∃ w, fetchWord t = some w ∧ w.toNat = b0.toNat * 256 + b1.toNat

/-- Between construction and the first successful `LOAD` every event but `LOAD` is refused by name; the `LOAD` of the program, if it is
not too large, launches the machine. The refusal is the spec's decision D1 (log 22). -/
def Obligations.OnlyLoadLaunchesTheMachine : Prop :=
  ∀ (mem : Memory) (params : Params) (e : Event),
    ((∀ bytes q, e ≠ .load bytes q) → System.event e (.constructed mem params) = .refused .beforeFirstLoad) ∧
    (∀ bytes q, e = .load bytes q → bytes.length ≤ 0xE00 →
      ∃ s, System.event e (.constructed mem params) = .next (.launched s, .done) ∧ s.run = .running ∧ s.pc = 0x200 ∧
        s.params = params)

/-- At the end of a run (R216, the spec's suggestion by decision D15, log 28) every further `STEP` leaves all state unchanged. -/
def Obligations.EndOfRunIsAFixedPoint : Prop := ∀ s : State, s.endOfRun → step s = .next s

/-- A hang is no end: a `STEP` changes nothing, and after a key is reported down the next `STEP` returns to `Running` (R199). -/
def Obligations.AKeyLiftsAHang : Prop :=
  ∀ (s : State) (k : Fin 16), s.hangs → step s = .next s ∧
    ∃ t, step (setKey k true s) = .next t ∧ t.run = .running ∧ ∀ r, s.run = .awaitingKey r → (t.vreg r).toNat = k.val

/-! ## Memory -/

/-- A byte read after bytes were written is the byte written there, or the old one outside them (R56, R58 (c)); from every list of
entries, in canonical form or not. -/
def Obligations.ReadAfterWrite : Prop :=
  ∀ (m : Memory) (a b : Nat) (bs : List Byte),
    (∀ h : a ≤ b ∧ b - a < bs.length, (m.setBytes a bs).byte b = bs[b - a]'h.2) ∧
    (b < a ∨ a + bs.length ≤ b → (m.setBytes a bs).byte b = m.byte b)

/-- A store inside memory keeps the canonical form of memory. -/
def Obligations.StoresKeepTheCanonicalForm : Prop :=
  ∀ (m m' : Memory) (a : Nat) (bs : List Byte), m.wf = true → memWrite m a bs = some m' → m'.wf = true

/-- In canonical form, memories that read the same at every address are the same data. -/
def Obligations.EqualMemoriesAreEqualData : Prop :=
  ∀ m m' : Memory, m.wf = true → m'.wf = true → (∀ a, m.byte a = m'.byte a) → m = m'

/-! ## Invariants -/

/-- The launch state meets the invariant. -/
def Obligations.ResetMeetsTheInvariant : Prop := State.reset.Inv

/-- From every state that meets the invariant, a `STEP` gives a state that meets it: memory canonical, `PC` at most `0x10FE` (R24), every
stacked value an even return address (R90), `AwaitingKey` at its `Fx0A` (R162), the fault record precise (R189, R190). -/
def Obligations.StepKeepsTheInvariant : Prop := ∀ s t : State, s.Inv → step s = .next t → t.Inv

/-- Every host event keeps the invariant, and no event is ever refused on a launched machine. -/
def Obligations.EveryEventKeepsTheInvariant : Prop :=
  ∀ (s : State) (e : Event), s.Inv → ∃ t r, State.event e s = .next (t, r) ∧ t.Inv

/-- Whatever `FONT`, `MEM_INIT` and parameters the machine is constructed with (R7), and whatever events happen in whatever order since
power-on (R9, R220), a launched machine meets the invariant. -/
def Obligations.EveryReachableStateMeetsTheInvariant : Prop :=
  ∀ (es : List Event) (l : Launch) (s : State), System.run es (System.powerOn l) = .next (.launched s) → s.Inv
end

