-- ==== Sys2Proof/Laws/State.lean ====
section
/-! SUPPORT. One lemma per field per update of State, each true by rfl, so that no proof unfolds a record update. -/

namespace Sys2Proof.Machine

@[simp] theorem setVreg_v (s : State) (x : Reg) (b : Byte) : (s.setVreg x b).v = s.v.set x.val b := rfl
@[simp] theorem setVreg_i (s : State) (x : Reg) (b : Byte) : (s.setVreg x b).i = s.i := rfl
@[simp] theorem setVreg_pc (s : State) (x : Reg) (b : Byte) : (s.setVreg x b).pc = s.pc := rfl
@[simp] theorem setVreg_stack (s : State) (x : Reg) (b : Byte) : (s.setVreg x b).stack = s.stack := rfl
@[simp] theorem setVreg_sp (s : State) (x : Reg) (b : Byte) : (s.setVreg x b).sp = s.sp := rfl
@[simp] theorem setVreg_dt (s : State) (x : Reg) (b : Byte) : (s.setVreg x b).dt = s.dt := rfl
@[simp] theorem setVreg_st (s : State) (x : Reg) (b : Byte) : (s.setVreg x b).st = s.st := rfl
@[simp] theorem setVreg_disp (s : State) (x : Reg) (b : Byte) : (s.setVreg x b).disp = s.disp := rfl
@[simp] theorem setVreg_dirty (s : State) (x : Reg) (b : Byte) : (s.setVreg x b).dirty = s.dirty := rfl
@[simp] theorem setVreg_key (s : State) (x : Reg) (b : Byte) : (s.setVreg x b).key = s.key := rfl
@[simp] theorem setVreg_quirks (s : State) (x : Reg) (b : Byte) : (s.setVreg x b).quirks = s.quirks := rfl
@[simp] theorem setVreg_run (s : State) (x : Reg) (b : Byte) : (s.setVreg x b).run = s.run := rfl
@[simp] theorem setVreg_mem (s : State) (x : Reg) (b : Byte) : (s.setVreg x b).mem = s.mem := rfl
@[simp] theorem setVreg_params (s : State) (x : Reg) (b : Byte) : (s.setVreg x b).params = s.params := rfl
@[simp] theorem setVreg_draws (s : State) (x : Reg) (b : Byte) : (s.setVreg x b).draws = s.draws := rfl

@[simp] theorem advance_v (s : State) : (advance s).v = s.v := rfl
@[simp] theorem advance_i (s : State) : (advance s).i = s.i := rfl
@[simp] theorem advance_pc (s : State) : (advance s).pc = pcPlus s 2 := rfl
@[simp] theorem advance_stack (s : State) : (advance s).stack = s.stack := rfl
@[simp] theorem advance_sp (s : State) : (advance s).sp = s.sp := rfl
@[simp] theorem advance_dt (s : State) : (advance s).dt = s.dt := rfl
@[simp] theorem advance_st (s : State) : (advance s).st = s.st := rfl
@[simp] theorem advance_disp (s : State) : (advance s).disp = s.disp := rfl
@[simp] theorem advance_dirty (s : State) : (advance s).dirty = s.dirty := rfl
@[simp] theorem advance_key (s : State) : (advance s).key = s.key := rfl
@[simp] theorem advance_quirks (s : State) : (advance s).quirks = s.quirks := rfl
@[simp] theorem advance_run (s : State) : (advance s).run = s.run := rfl
@[simp] theorem advance_mem (s : State) : (advance s).mem = s.mem := rfl
@[simp] theorem advance_params (s : State) : (advance s).params = s.params := rfl
@[simp] theorem advance_draws (s : State) : (advance s).draws = s.draws := rfl

@[simp] theorem skipIf_v (s : State) (c : Bool) : (skipIf c s).v = s.v := rfl
@[simp] theorem skipIf_i (s : State) (c : Bool) : (skipIf c s).i = s.i := rfl
@[simp] theorem skipIf_pc (s : State) (c : Bool) : (skipIf c s).pc = pcPlus s (if c then 4 else 2) := rfl
@[simp] theorem skipIf_stack (s : State) (c : Bool) : (skipIf c s).stack = s.stack := rfl
@[simp] theorem skipIf_sp (s : State) (c : Bool) : (skipIf c s).sp = s.sp := rfl
@[simp] theorem skipIf_dt (s : State) (c : Bool) : (skipIf c s).dt = s.dt := rfl
@[simp] theorem skipIf_st (s : State) (c : Bool) : (skipIf c s).st = s.st := rfl
@[simp] theorem skipIf_disp (s : State) (c : Bool) : (skipIf c s).disp = s.disp := rfl
@[simp] theorem skipIf_dirty (s : State) (c : Bool) : (skipIf c s).dirty = s.dirty := rfl
@[simp] theorem skipIf_key (s : State) (c : Bool) : (skipIf c s).key = s.key := rfl
@[simp] theorem skipIf_quirks (s : State) (c : Bool) : (skipIf c s).quirks = s.quirks := rfl
@[simp] theorem skipIf_run (s : State) (c : Bool) : (skipIf c s).run = s.run := rfl
@[simp] theorem skipIf_mem (s : State) (c : Bool) : (skipIf c s).mem = s.mem := rfl
@[simp] theorem skipIf_params (s : State) (c : Bool) : (skipIf c s).params = s.params := rfl
@[simp] theorem skipIf_draws (s : State) (c : Bool) : (skipIf c s).draws = s.draws := rfl

@[simp] theorem jumpTo_v (s : State) (w : Word) : (jumpTo w s).v = s.v := rfl
@[simp] theorem jumpTo_i (s : State) (w : Word) : (jumpTo w s).i = s.i := rfl
@[simp] theorem jumpTo_pc (s : State) (w : Word) : (jumpTo w s).pc = w := rfl
@[simp] theorem jumpTo_stack (s : State) (w : Word) : (jumpTo w s).stack = s.stack := rfl
@[simp] theorem jumpTo_sp (s : State) (w : Word) : (jumpTo w s).sp = s.sp := rfl
@[simp] theorem jumpTo_dt (s : State) (w : Word) : (jumpTo w s).dt = s.dt := rfl
@[simp] theorem jumpTo_st (s : State) (w : Word) : (jumpTo w s).st = s.st := rfl
@[simp] theorem jumpTo_disp (s : State) (w : Word) : (jumpTo w s).disp = s.disp := rfl
@[simp] theorem jumpTo_dirty (s : State) (w : Word) : (jumpTo w s).dirty = s.dirty := rfl
@[simp] theorem jumpTo_key (s : State) (w : Word) : (jumpTo w s).key = s.key := rfl
@[simp] theorem jumpTo_quirks (s : State) (w : Word) : (jumpTo w s).quirks = s.quirks := rfl
@[simp] theorem jumpTo_run (s : State) (w : Word) : (jumpTo w s).run = s.run := rfl
@[simp] theorem jumpTo_mem (s : State) (w : Word) : (jumpTo w s).mem = s.mem := rfl
@[simp] theorem jumpTo_params (s : State) (w : Word) : (jumpTo w s).params = s.params := rfl
@[simp] theorem jumpTo_draws (s : State) (w : Word) : (jumpTo w s).draws = s.draws := rfl

@[simp] theorem raise_v (s : State) (k : FaultKind) (w : Option Word) : (raise s k w).v = s.v := rfl
@[simp] theorem raise_i (s : State) (k : FaultKind) (w : Option Word) : (raise s k w).i = s.i := rfl
@[simp] theorem raise_pc (s : State) (k : FaultKind) (w : Option Word) : (raise s k w).pc = s.pc := rfl
@[simp] theorem raise_stack (s : State) (k : FaultKind) (w : Option Word) : (raise s k w).stack = s.stack := rfl
@[simp] theorem raise_sp (s : State) (k : FaultKind) (w : Option Word) : (raise s k w).sp = s.sp := rfl
@[simp] theorem raise_dt (s : State) (k : FaultKind) (w : Option Word) : (raise s k w).dt = s.dt := rfl
@[simp] theorem raise_st (s : State) (k : FaultKind) (w : Option Word) : (raise s k w).st = s.st := rfl
@[simp] theorem raise_disp (s : State) (k : FaultKind) (w : Option Word) : (raise s k w).disp = s.disp := rfl
@[simp] theorem raise_dirty (s : State) (k : FaultKind) (w : Option Word) : (raise s k w).dirty = s.dirty := rfl
@[simp] theorem raise_key (s : State) (k : FaultKind) (w : Option Word) : (raise s k w).key = s.key := rfl
@[simp] theorem raise_quirks (s : State) (k : FaultKind) (w : Option Word) : (raise s k w).quirks = s.quirks := rfl
@[simp] theorem raise_run (s : State) (k : FaultKind) (w : Option Word) : (raise s k w).run = .halted { kind := k, pc := s.pc, word := w } := rfl
@[simp] theorem raise_mem (s : State) (k : FaultKind) (w : Option Word) : (raise s k w).mem = s.mem := rfl
@[simp] theorem raise_params (s : State) (k : FaultKind) (w : Option Word) : (raise s k w).params = s.params := rfl
@[simp] theorem raise_draws (s : State) (k : FaultKind) (w : Option Word) : (raise s k w).draws = s.draws := rfl

@[simp] theorem drawByte_v (s : State) : ((drawByte s).2).v = s.v := rfl
@[simp] theorem drawByte_i (s : State) : ((drawByte s).2).i = s.i := rfl
@[simp] theorem drawByte_pc (s : State) : ((drawByte s).2).pc = s.pc := rfl
@[simp] theorem drawByte_stack (s : State) : ((drawByte s).2).stack = s.stack := rfl
@[simp] theorem drawByte_sp (s : State) : ((drawByte s).2).sp = s.sp := rfl
@[simp] theorem drawByte_dt (s : State) : ((drawByte s).2).dt = s.dt := rfl
@[simp] theorem drawByte_st (s : State) : ((drawByte s).2).st = s.st := rfl
@[simp] theorem drawByte_disp (s : State) : ((drawByte s).2).disp = s.disp := rfl
@[simp] theorem drawByte_dirty (s : State) : ((drawByte s).2).dirty = s.dirty := rfl
@[simp] theorem drawByte_key (s : State) : ((drawByte s).2).key = s.key := rfl
@[simp] theorem drawByte_quirks (s : State) : ((drawByte s).2).quirks = s.quirks := rfl
@[simp] theorem drawByte_run (s : State) : ((drawByte s).2).run = s.run := rfl
@[simp] theorem drawByte_mem (s : State) : ((drawByte s).2).mem = s.mem := rfl
@[simp] theorem drawByte_params (s : State) : ((drawByte s).2).params = s.params := rfl
@[simp] theorem drawByte_draws (s : State) : ((drawByte s).2).draws = s.draws + 1 := rfl

@[simp] theorem drawSprite_i (s : State) (cx cy : Byte) (sprite : List Byte) : (drawSprite s cx cy sprite).i = s.i := rfl
@[simp] theorem drawSprite_pc (s : State) (cx cy : Byte) (sprite : List Byte) : (drawSprite s cx cy sprite).pc = s.pc := rfl
@[simp] theorem drawSprite_stack (s : State) (cx cy : Byte) (sprite : List Byte) : (drawSprite s cx cy sprite).stack = s.stack := rfl
@[simp] theorem drawSprite_sp (s : State) (cx cy : Byte) (sprite : List Byte) : (drawSprite s cx cy sprite).sp = s.sp := rfl
@[simp] theorem drawSprite_dt (s : State) (cx cy : Byte) (sprite : List Byte) : (drawSprite s cx cy sprite).dt = s.dt := rfl
@[simp] theorem drawSprite_st (s : State) (cx cy : Byte) (sprite : List Byte) : (drawSprite s cx cy sprite).st = s.st := rfl
@[simp] theorem drawSprite_disp (s : State) (cx cy : Byte) (sprite : List Byte) : (drawSprite s cx cy sprite).disp = Display.toggleAll s.disp (spritePixels s.params.edgePolicy cx.toNat cy.toNat sprite) := rfl
@[simp] theorem drawSprite_dirty (s : State) (cx cy : Byte) (sprite : List Byte) : (drawSprite s cx cy sprite).dirty = true := rfl
@[simp] theorem drawSprite_key (s : State) (cx cy : Byte) (sprite : List Byte) : (drawSprite s cx cy sprite).key = s.key := rfl
@[simp] theorem drawSprite_quirks (s : State) (cx cy : Byte) (sprite : List Byte) : (drawSprite s cx cy sprite).quirks = s.quirks := rfl
@[simp] theorem drawSprite_run (s : State) (cx cy : Byte) (sprite : List Byte) : (drawSprite s cx cy sprite).run = s.run := rfl
@[simp] theorem drawSprite_mem (s : State) (cx cy : Byte) (sprite : List Byte) : (drawSprite s cx cy sprite).mem = s.mem := rfl
@[simp] theorem drawSprite_params (s : State) (cx cy : Byte) (sprite : List Byte) : (drawSprite s cx cy sprite).params = s.params := rfl
@[simp] theorem drawSprite_draws (s : State) (cx cy : Byte) (sprite : List Byte) : (drawSprite s cx cy sprite).draws = s.draws := rfl

@[simp] theorem tick_v (s : State) : (tick s).v = s.v := rfl
@[simp] theorem tick_i (s : State) : (tick s).i = s.i := rfl
@[simp] theorem tick_pc (s : State) : (tick s).pc = s.pc := rfl
@[simp] theorem tick_stack (s : State) : (tick s).stack = s.stack := rfl
@[simp] theorem tick_sp (s : State) : (tick s).sp = s.sp := rfl
@[simp] theorem tick_dt (s : State) : (tick s).dt = countDown s.dt := rfl
@[simp] theorem tick_st (s : State) : (tick s).st = countDown s.st := rfl
@[simp] theorem tick_disp (s : State) : (tick s).disp = s.disp := rfl
@[simp] theorem tick_dirty (s : State) : (tick s).dirty = s.dirty := rfl
@[simp] theorem tick_key (s : State) : (tick s).key = s.key := rfl
@[simp] theorem tick_quirks (s : State) : (tick s).quirks = s.quirks := rfl
@[simp] theorem tick_run (s : State) : (tick s).run = s.run := rfl
@[simp] theorem tick_mem (s : State) : (tick s).mem = s.mem := rfl
@[simp] theorem tick_params (s : State) : (tick s).params = s.params := rfl
@[simp] theorem tick_draws (s : State) : (tick s).draws = s.draws := rfl

@[simp] theorem setKey_v (s : State) (k : Fin 16) (down : Bool) : (Machine.setKey k down s).v = s.v := rfl
@[simp] theorem setKey_i (s : State) (k : Fin 16) (down : Bool) : (Machine.setKey k down s).i = s.i := rfl
@[simp] theorem setKey_pc (s : State) (k : Fin 16) (down : Bool) : (Machine.setKey k down s).pc = s.pc := rfl
@[simp] theorem setKey_stack (s : State) (k : Fin 16) (down : Bool) : (Machine.setKey k down s).stack = s.stack := rfl
@[simp] theorem setKey_sp (s : State) (k : Fin 16) (down : Bool) : (Machine.setKey k down s).sp = s.sp := rfl
@[simp] theorem setKey_dt (s : State) (k : Fin 16) (down : Bool) : (Machine.setKey k down s).dt = s.dt := rfl
@[simp] theorem setKey_st (s : State) (k : Fin 16) (down : Bool) : (Machine.setKey k down s).st = s.st := rfl
@[simp] theorem setKey_disp (s : State) (k : Fin 16) (down : Bool) : (Machine.setKey k down s).disp = s.disp := rfl
@[simp] theorem setKey_dirty (s : State) (k : Fin 16) (down : Bool) : (Machine.setKey k down s).dirty = s.dirty := rfl
@[simp] theorem setKey_key (s : State) (k : Fin 16) (down : Bool) : (Machine.setKey k down s).key = s.key.set k.val down := rfl
@[simp] theorem setKey_quirks (s : State) (k : Fin 16) (down : Bool) : (Machine.setKey k down s).quirks = s.quirks := rfl
@[simp] theorem setKey_run (s : State) (k : Fin 16) (down : Bool) : (Machine.setKey k down s).run = s.run := rfl
@[simp] theorem setKey_mem (s : State) (k : Fin 16) (down : Bool) : (Machine.setKey k down s).mem = s.mem := rfl
@[simp] theorem setKey_params (s : State) (k : Fin 16) (down : Bool) : (Machine.setKey k down s).params = s.params := rfl
@[simp] theorem setKey_draws (s : State) (k : Fin 16) (down : Bool) : (Machine.setKey k down s).draws = s.draws := rfl

@[simp] theorem clearDirty_v (s : State) : (Machine.clearDirty s).v = s.v := rfl
@[simp] theorem clearDirty_i (s : State) : (Machine.clearDirty s).i = s.i := rfl
@[simp] theorem clearDirty_pc (s : State) : (Machine.clearDirty s).pc = s.pc := rfl
@[simp] theorem clearDirty_stack (s : State) : (Machine.clearDirty s).stack = s.stack := rfl
@[simp] theorem clearDirty_sp (s : State) : (Machine.clearDirty s).sp = s.sp := rfl
@[simp] theorem clearDirty_dt (s : State) : (Machine.clearDirty s).dt = s.dt := rfl
@[simp] theorem clearDirty_st (s : State) : (Machine.clearDirty s).st = s.st := rfl
@[simp] theorem clearDirty_disp (s : State) : (Machine.clearDirty s).disp = s.disp := rfl
@[simp] theorem clearDirty_dirty (s : State) : (Machine.clearDirty s).dirty = false := rfl
@[simp] theorem clearDirty_key (s : State) : (Machine.clearDirty s).key = s.key := rfl
@[simp] theorem clearDirty_quirks (s : State) : (Machine.clearDirty s).quirks = s.quirks := rfl
@[simp] theorem clearDirty_run (s : State) : (Machine.clearDirty s).run = s.run := rfl
@[simp] theorem clearDirty_mem (s : State) : (Machine.clearDirty s).mem = s.mem := rfl
@[simp] theorem clearDirty_params (s : State) : (Machine.clearDirty s).params = s.params := rfl
@[simp] theorem clearDirty_draws (s : State) : (Machine.clearDirty s).draws = s.draws := rfl

@[simp] theorem raiseAt_eq_raise (s : State) (k : FaultKind) (i : Instr) : raiseAt s k i = raise s k (some (encode i)) := rfl
@[simp] theorem pcPlus_eq (s : State) (n : Nat) : pcPlus s n = s.pc + BitVec.ofNat 16 n := rfl
@[simp] theorem dataAddress_eq (s : State) : dataAddress s = s.i.toNat := rfl

end Sys2Proof.Machine
end

