-- ==== Sys2Proof/Laws/Memory.lean ====
section
/-! SUPPORT. What the memory operations do, once each: a byte read after a write (R56, R58), the range check (R53), and that every
operation keeps the canonical form. -/

namespace Sys2Proof.Machine

theorem byte_filter_same (m : Memory) (a : Nat) : Memory.byte (m.filter (fun c => c.1 != a)) a = unlisted a := by
  induction m with
  | nil => rfl
  | cons c m ih =>
    by_cases h : c.1 = a
    · simpa [h] using ih
    · simp [h, Memory.byte, Ne.symm h, ih]

theorem byte_filter_other (m : Memory) {a b : Nat} (h : b ≠ a) :
    Memory.byte (m.filter (fun c => c.1 != a)) b = m.byte b := by
  induction m with
  | nil => rfl
  | cons c m ih =>
    by_cases hc : c.1 = a
    · simp [hc, Memory.byte, h, ih]
    · simp [hc, Memory.byte, ih]

theorem byte_insert_other (m : Memory) {a b : Nat} (v : Byte) (h : b ≠ a) : (Memory.insert m a v).byte b = m.byte b := by
  induction m with
  | nil => simp [Memory.insert, Memory.byte, h]
  | cons c m ih =>
    simp only [Memory.insert]
    split
    · simp [Memory.byte, h]
    · simp [Memory.byte, ih]

theorem byte_insert_same (m : Memory) (a : Nat) (v : Byte) (h : ∀ c ∈ m, c.1 ≠ a) : (Memory.insert m a v).byte a = v := by
  induction m with
  | nil => simp [Memory.insert, Memory.byte]
  | cons c m ih =>
    simp only [Memory.insert]
    split
    · simp [Memory.byte]
    · simp [Memory.byte, (h c (by simp)).symm, ih (fun d hd => h d (by simp [hd]))]

/-- Read after write of one byte, from every list of entries. -/
theorem byte_set (m : Memory) (a b : Nat) (v : Byte) : (m.set a v).byte b = if b = a then v else m.byte b := by
  by_cases h : b = a
  · subst h
    simp only [Memory.set, if_true]
    split
    · rw [byte_filter_same]; exact Eq.symm ‹_›
    · exact byte_insert_same _ _ _ (by simp)
  · simp only [Memory.set, if_neg h]
    split
    · exact byte_filter_other m h
    · rw [byte_insert_other _ _ h, byte_filter_other m h]

/-- Read outside the written bytes. -/
theorem byte_setBytes_outside (m : Memory) (a b : Nat) (bs : List Byte) (h : b < a ∨ a + bs.length ≤ b) :
    (m.setBytes a bs).byte b = m.byte b := by
  induction bs generalizing m a with
  | nil => rfl
  | cons v bs ih =>
    simp only [List.length_cons] at h
    rw [Memory.setBytes, ih _ _ (by omega), byte_set, if_neg (by omega)]

/-- Read inside the written bytes. -/
theorem byte_setBytes_inside (m : Memory) (a j : Nat) (bs : List Byte) (h : j < bs.length) :
    (m.setBytes a bs).byte (a + j) = bs[j] := by
  induction bs generalizing m a j with
  | nil => simp at h
  | cons v bs ih =>
    cases j with
    | zero => rw [Memory.setBytes, byte_setBytes_outside _ _ _ _ (by omega), byte_set, if_pos (by omega)]; simp
    | succ j =>
      have := ih (m.set a v) (a + 1) j (by simpa using h)
      rw [Memory.setBytes, show a + (j + 1) = a + 1 + j by omega, this]; simp

/-! ## The range check -/

theorem outOfRange_iff (a n : Nat) : outOfRange a n = true ↔ 1 ≤ n ∧ a + n - 1 > 0xFFF := by simp [outOfRange]

theorem memRead_eq_none (m : Memory) (a n : Nat) : memRead m a n = none ↔ 1 ≤ n ∧ a + n - 1 > 0xFFF := by
  rw [← outOfRange_iff]; simp [memRead]

theorem memWrite_eq_none (m : Memory) (a : Nat) (bs : List Byte) :
    memWrite m a bs = none ↔ 1 ≤ bs.length ∧ a + bs.length - 1 > 0xFFF := by
  rw [← outOfRange_iff]; simp [memWrite]

/-- Everything a read that passes the check can answer. -/
theorem memRead_eq_some {m : Memory} {a n : Nat} {bs : List Byte} (h : memRead m a n = some bs) :
    (1 ≤ n → a + n - 1 ≤ 0xFFF) ∧ bs.length = n ∧ ∀ (j : Nat) (hj : j < bs.length), bs[j] = m.byte (a + j) := by
  unfold memRead at h
  split at h
  · cases h
  · rename_i hr
    rw [outOfRange_iff] at hr
    cases h
    exact ⟨by omega, by simp, by simp⟩

/-- Everything a write that passes the check can answer. -/
theorem memWrite_eq_some {m m' : Memory} {a : Nat} {bs : List Byte} (h : memWrite m a bs = some m') :
    (1 ≤ bs.length → a + bs.length - 1 ≤ 0xFFF) ∧ m' = m.setBytes a bs := by
  unfold memWrite at h
  split at h
  · cases h
  · rename_i hr
    rw [outOfRange_iff] at hr
    cases h
    exact ⟨by omega, rfl⟩

/-! ## The canonical form -/

theorem wf_iff (m : Memory) :
    m.wf = true ↔ m.Pairwise (fun c d => c.1 < d.1) ∧ ∀ c ∈ m, c.1 < Config.memSize ∧ c.2 ≠ unlisted c.1 := by
  simp [Memory.wf]

theorem mem_insert {m : Memory} {a : Nat} {v : Byte} {c : Host.Cell} (h : c ∈ Memory.insert m a v) : c = (a, v) ∨ c ∈ m := by
  induction m with
  | nil => simpa [Memory.insert] using h
  | cons d m ih =>
    simp only [Memory.insert] at h
    split at h
    · simpa using h
    · rcases List.mem_cons.1 h with h | h
      · exact .inr (by simp [h])
      · exact (ih h).imp id (by simp +contextual)

theorem pairwise_insert {m : Memory} {a : Nat} {v : Byte} (hm : m.Pairwise (fun c d => c.1 < d.1)) (ha : ∀ c ∈ m, c.1 ≠ a) :
    (Memory.insert m a v).Pairwise (fun c d => c.1 < d.1) := by
  induction m with
  | nil => simp [Memory.insert]
  | cons d m ih =>
    rw [List.pairwise_cons] at hm
    have hd := ha d (by simp)
    simp only [Memory.insert]
    split
    · rename_i hlt
      refine List.pairwise_cons.2 ⟨fun c hc => ?_, List.pairwise_cons.2 hm⟩
      rcases List.mem_cons.1 hc with rfl | hc
      · exact hlt
      · have h := hm.1 c hc
        exact Nat.lt_trans hlt h
    · rename_i hnlt
      refine List.pairwise_cons.2 ⟨fun c hc => ?_, ih hm.2 (fun c hc => ha c (by simp [hc]))⟩
      rcases mem_insert hc with rfl | hc
      · simp only at hnlt ⊢; omega
      · exact hm.1 c hc

/-- Writing one byte inside memory keeps the canonical form. -/
theorem wf_set {m : Memory} {a : Nat} (v : Byte) (hm : m.wf = true) (ha : a < Config.memSize) : (m.set a v).wf = true := by
  rw [wf_iff] at hm ⊢
  have hf : (m.filter (fun c => c.1 != a)).Pairwise (fun c d => c.1 < d.1) := hm.1.filter _
  have hall : ∀ c ∈ m.filter (fun c => c.1 != a), c.1 < Config.memSize ∧ c.2 ≠ unlisted c.1 :=
    fun c hc => hm.2 c (List.mem_of_mem_filter hc)
  simp only [Memory.set]
  split
  · exact ⟨hf, hall⟩
  · rename_i hv
    refine ⟨pairwise_insert hf (by simp), fun c hc => ?_⟩
    rcases mem_insert hc with rfl | hc
    · exact ⟨ha, hv⟩
    · exact hall c hc

/-- Writing bytes inside memory keeps the canonical form. -/
theorem wf_setBytes {m : Memory} {a : Nat} {bs : List Byte} (hm : m.wf = true) (ha : a + bs.length ≤ Config.memSize) :
    (m.setBytes a bs).wf = true := by
  induction bs generalizing m a with
  | nil => exact hm
  | cons v bs ih =>
    simp only [List.length_cons] at ha
    exact ih (wf_set v hm (by omega)) (by omega)

/-! ## Construction -/

/-- Writing what unlisted addresses read as lists nothing. -/
theorem setBytes_unlisted {a : Nat} {bs : List Byte} (h : ∀ (j : Nat) (hj : j < bs.length), bs[j] = unlisted (a + j)) :
    Memory.setBytes [] a bs = [] := by
  induction bs generalizing a with
  | nil => rfl
  | cons b bs ih =>
    have hb : b = unlisted a := h 0 (by simp)
    have hset : Memory.set [] a b = [] := by simp [Memory.set, hb]
    rw [Memory.setBytes, hset]
    refine ih fun j hj => ?_
    rw [show a + 1 + j = a + (j + 1) by omega]
    exact h (j + 1) (by simpa using hj)

/-- Constructed memory is in canonical form, whatever `FONT` and `MEM_INIT` are. -/
theorem wf_constructedMemory (font : Vector Byte Config.fontEnd) (memInit : Vector Byte Config.memInitSize) :
    (constructedMemory font memInit).wf = true :=
  wf_setBytes (wf_setBytes rfl (by simp [Config.fontEnd, Config.memSize]))
    (by simp [Config.fontEnd, Config.memSize, Config.memInitSize])

/-- Below `0x050` it reads as `FONT`. -/
theorem byte_constructedMemory_font (font : Vector Byte Config.fontEnd) (memInit : Vector Byte Config.memInitSize) (j : Nat)
    (h : j < Config.fontEnd) : (constructedMemory font memInit).byte j = font[j] := by
  have hj := byte_setBytes_inside [] 0 j font.toList (by simpa using h)
  rw [Nat.zero_add] at hj
  rw [constructedMemory, byte_setBytes_outside _ _ _ _ (.inl h), hj]
  simp

/-- From `0x050` on it reads as `MEM_INIT`. -/
theorem byte_constructedMemory_memInit (font : Vector Byte Config.fontEnd) (memInit : Vector Byte Config.memInitSize) (j : Nat)
    (h : j < Config.memInitSize) : (constructedMemory font memInit).byte (Config.fontEnd + j) = memInit[j] := by
  rw [constructedMemory, byte_setBytes_inside _ _ _ _ (by simpa using h)]
  simp

/-- With the defaults nothing is listed. -/
theorem constructedMemory_default : constructedMemory Config.defaultLaunch.font Config.defaultLaunch.memInit = [] := by
  have hfont : Memory.setBytes [] 0 Config.defaultLaunch.font.toList = [] :=
    setBytes_unlisted fun j hj => by
      have hj' : j < Config.defaultFont.length := hj
      show Config.defaultFont[j] = unlisted (0 + j)
      simp [unlisted, hj']
  rw [constructedMemory, hfont]
  refine setBytes_unlisted fun j hj => ?_
  have hlen : Config.defaultFont.length ≤ Config.fontEnd + j := Nat.le_add_right 80 j
  simp [Config.defaultLaunch, unlisted, List.getElem?_eq_none hlen]

/-- Memory after reset is in canonical form. -/
theorem wf_reset : State.reset.mem.wf = true := rfl

end Sys2Proof.Machine
end

