-- ==== Sys2Proof/Laws/Registers.lean ====
section
/-! SUPPORT. What the register, flag and stack operations do, once each (R21, R22, R25, R134, R135). -/

namespace Sys2Proof.Machine

/-! ## V registers -/

theorem vreg_def (s : State) (x : Reg) : s.vreg x = s.v[x.val] := rfl

@[simp] theorem vreg_setVreg (s : State) (x y : Reg) (b : Byte) : (s.setVreg x b).vreg y = if y = x then b else s.vreg y := by
  by_cases h : y = x
  · subst h; simp [vreg_def]
  · rw [if_neg h, vreg_def, setVreg_v, Vector.getElem_set_ne _ _ (fun e => h (Fin.ext e.symm))]; rfl

@[simp] theorem vreg_advance (s : State) (y : Reg) : (advance s).vreg y = s.vreg y := rfl
@[simp] theorem vreg_skipIf (c : Bool) (s : State) (y : Reg) : (skipIf c s).vreg y = s.vreg y := rfl
@[simp] theorem vreg_jumpTo (w : Word) (s : State) (y : Reg) : (jumpTo w s).vreg y = s.vreg y := rfl
@[simp] theorem vreg_raise (s : State) (k : FaultKind) (w : Option Word) (y : Reg) : (raise s k w).vreg y = s.vreg y := rfl
@[simp] theorem vreg_drawByte (s : State) (y : Reg) : (drawByte s).2.vreg y = s.vreg y := rfl

/-- "VF first, then `V[x]`" (R81, R123). -/
@[simp] theorem vreg_writeFlagThenResult (s : State) (x y : Reg) (f r : Byte) :
    (writeFlagThenResult s x f r).vreg y = if y = x then r else if y = regF then f else s.vreg y := by
  simp [writeFlagThenResult]

@[simp] theorem writeFlagThenResult_pc (s : State) (x : Reg) (f r : Byte) : (writeFlagThenResult s x f r).pc = s.pc := rfl

/-- A flag is 0 or 1 (R22). -/
@[simp] theorem flagByte_toNat (b : Bool) : (flagByte b).toNat = if b then 1 else 0 := by cases b <;> rfl

/-! ## Ranges of V registers -/

theorem vregsUpTo_length (s : State) (x : Reg) : (vregsUpTo s x).length = x.val + 1 := by
  simp [vregsUpTo]

theorem vregsUpTo_getElem (s : State) (x j : Reg) (h : j.val < (vregsUpTo s x).length) : (vregsUpTo s x)[j.val] = s.vreg j := by
  simp [vregsUpTo, vreg_def]

/-- Register `r` after `V[j], V[j+1], …` are written. -/
theorem setVregsFrom_getElem (v : Vector Byte 16) (j : Nat) (bs : List Byte) (r : Reg) :
    (setVregsFrom v j bs)[r.val] = if h : j ≤ r.val ∧ r.val - j < bs.length then bs[r.val - j]'h.2 else v[r.val] := by
  induction bs generalizing v j with
  | nil => simp [setVregsFrom]
  | cons b bs ih =>
    rw [setVregsFrom, ih, Vector.getElem_setIfInBounds]
    rcases Nat.lt_trichotomy j r.val with h | h | h
    · obtain ⟨k, hk⟩ : ∃ k, r.val - j = k + 1 := ⟨r.val - j - 1, by omega⟩
      have hk' : r.val - (j + 1) = k := by omega
      simp only [List.length_cons, hk, hk', List.getElem_cons_succ]
      have e1 : (j + 1 ≤ r.val ∧ k < bs.length) ↔ (j ≤ r.val ∧ k + 1 < bs.length + 1) := by omega
      simp only [e1, if_neg (show ¬ j = r.val by omega)]
    · simp [h]
    · rw [dif_neg (by omega), dif_neg (by omega), if_neg (by omega)]

/-! ## The stack -/

/-- Everything a push can answer. -/
theorem push_cases (s : State) (w : Word) :
    (s.sp.val = 16 ∧ push s w = none) ∨
    ∃ h : s.sp.val < 16, push s w = some { s with stack := s.stack.set s.sp.val w, sp := ⟨s.sp.val + 1, by omega⟩ } := by
  by_cases h : s.sp.val < 16
  · exact .inr ⟨h, by simp [push, h]⟩
  · exact .inl ⟨by omega, by simp [push, h]⟩

/-- Everything a pop can answer. -/
theorem pop_cases (s : State) :
    (s.sp.val = 0 ∧ pop s = none) ∨
    ∃ h : 0 < s.sp.val, pop s = some (s.stack[s.sp.val - 1]'(by omega), { s with sp := ⟨s.sp.val - 1, by omega⟩ }) := by
  by_cases h : 0 < s.sp.val
  · exact .inr ⟨h, by simp [pop, h]⟩
  · exact .inl ⟨by omega, by simp [pop, h]⟩

end Sys2Proof.Machine
end

