-- ==== Sys2Proof/Laws/Display.lean ====
section
/-! SUPPORT. What the display operations do, once each (R27, R151 to R153). -/

namespace Sys2Proof.Machine

theorem cell_setCell (d : Display) (p q : Fin 32 × Fin 64) (b : Bool) :
    Display.cell (Display.setCell d p b) q = if q = p then b else Display.cell d q := by
  obtain ⟨r, c⟩ := p
  obtain ⟨r', c'⟩ := q
  have hc := c'.isLt
  simp only [Display.cell, Display.setCell, Vector.getElem_set]
  by_cases hr : r.val = r'.val
  · have hr' : r' = r := Fin.ext hr.symm
    subst hr'
    by_cases hcc : c.val = c'.val
    · have : c' = c := Fin.ext hcc.symm
      subst this
      cases b <;> simp
    · have : ¬ c' = c := fun e => hcc (by rw [e])
      cases b <;> simp [this, Ne.symm hcc]
  · have : ¬ r' = r := fun e => hr (by rw [e])
    simp [hr, this]

@[simp] theorem cell_clear (p : Fin 32 × Fin 64) : Display.cell Display.clear p = false := by
  simp [Display.cell, Display.clear]

/-- Displays with the same cells are the same. -/
theorem display_ext {d e : Display} (h : ∀ p, Display.cell d p = Display.cell e p) : d = e := by
  apply Vector.ext
  intro r hr
  apply BitVec.eq_of_getLsbD_eq
  intro c hc
  exact h (⟨r, hr⟩, ⟨c, hc⟩)

theorem cell_foldl_toggle (old d : Display) (ps : List (Fin 32 × Fin 64)) (q : Fin 32 × Fin 64) :
    Display.cell (ps.foldl (fun d p => Display.setCell d p (!Display.cell old p)) d) q =
      if q ∈ ps then !Display.cell old q else Display.cell d q := by
  induction ps generalizing d with
  | nil => simp
  | cons p ps ih =>
    rw [List.foldl_cons, ih, cell_setCell]
    by_cases hm : q ∈ ps
    · simp [hm]
    · by_cases he : q = p
      · subst he; simp [hm]
      · simp [hm, he]

/-- Each listed cell flips, however often it is listed; every other stays (R151). -/
theorem cell_toggleAll (d : Display) (ps : List (Fin 32 × Fin 64)) (q : Fin 32 × Fin 64) :
    Display.cell (Display.toggleAll d ps) q = (Display.cell d q ^^ decide (q ∈ ps)) := by
  rw [Display.toggleAll, cell_foldl_toggle]
  by_cases h : q ∈ ps <;> simp [h]

/-- The cells of one sprite row (R152, R153). -/
theorem mem_rowPixels (policy : EdgePolicy) (cx row : Nat) (bits : Byte) (q : Fin 32 × Fin 64) :
    q ∈ rowPixels policy cx row bits ↔ ∃ c, c < 8 ∧ bits.getLsbD (7 - c) = true ∧ pixelTarget policy (cx + c) row = some q := by
  simp [rowPixels]

/-- The cells of a sprite: those of its rows, row `r` drawn at `row + r`. -/
theorem mem_spritePixels (policy : EdgePolicy) (cx row : Nat) (bytes : List Byte) (q : Fin 32 × Fin 64) :
    q ∈ spritePixels policy cx row bytes ↔
      ∃ (r : Nat) (h : r < bytes.length), q ∈ rowPixels policy cx (row + r) bytes[r] := by
  induction bytes generalizing row with
  | nil => simp [spritePixels]
  | cons b bs ih =>
    rw [spritePixels, List.mem_append, ih]
    constructor
    · rintro (h | ⟨r, h, hq⟩)
      · exact ⟨0, by simp, by simpa using h⟩
      · exact ⟨r + 1, by simpa using h, by simpa [Nat.add_assoc, Nat.add_comm 1 r] using hq⟩
    · rintro ⟨_ | r, h, hq⟩
      · exact .inl (by simpa using hq)
      · exact .inr ⟨r, by simpa using h, by simpa [Nat.add_assoc, Nat.add_comm 1 r] using hq⟩

/-- Where a pixel lands (R153). -/
theorem pixelTarget_eq_some (policy : EdgePolicy) (col row : Nat) (q : Fin 32 × Fin 64) :
    pixelTarget policy col row = some q ↔
      match policy with
      | .clip => q.1.val = row ∧ q.2.val = col
      | .wrap => q.1.val = row % 32 ∧ q.2.val = col % 64 := by
  obtain ⟨r, c⟩ := q
  have hr := r.isLt
  have hc := c.isLt
  cases policy with
  | clip =>
    simp only [pixelTarget]
    split
    · simp only [Option.some.injEq, Prod.mk.injEq, Fin.ext_iff]
      exact ⟨fun h => ⟨h.1.symm, h.2.symm⟩, fun h => ⟨h.1.symm, h.2.symm⟩⟩
    · simp only [reduceCtorEq, false_iff]; omega
  | wrap =>
    simp only [pixelTarget, Option.some.injEq, Prod.mk.injEq, Fin.ext_iff]
    exact ⟨fun h => ⟨h.1.symm, h.2.symm⟩, fun h => ⟨h.1.symm, h.2.symm⟩⟩

end Sys2Proof.Machine
end

