-- ==== Sys2Proof/Laws/Frames.lean ====
section
/-! SUPPORT. Frames: how `OnlyChanges` is built, weakened and chained. -/

namespace Sys2Proof.Machine

theorem Component.Same.refl (c : Component) (s : State) : c.Same s s := by cases c <;> rfl

theorem Component.Same.trans {c : Component} {s t u : State} (h : c.Same s t) (h' : c.Same t u) : c.Same s u := by
  cases c <;> exact Eq.trans h' h

theorem OnlyChanges.refl (w : Component → Prop) (s : State) : OnlyChanges w s s := fun c _ => Component.Same.refl c s

theorem OnlyChanges.mono {w w' : Component → Prop} {s t : State} (h : OnlyChanges w s t) (hw : ∀ c, w c → w' c) :
    OnlyChanges w' s t := fun c hc => h c (fun hcw => hc (hw c hcw))

theorem OnlyChanges.trans {w : Component → Prop} {s t u : State} (h : OnlyChanges w s t) (h' : OnlyChanges w t u) :
    OnlyChanges w s u := fun c hc => (h c hc).trans (h' c hc)

/-- A frame, component by component. -/
theorem onlyChanges_of {w : Component → Prop} {s t : State} (hv : ∀ x, ¬ w (.vreg x) → t.vreg x = s.vreg x)
    (hi : ¬ w .index → t.i = s.i) (hpc : ¬ w .pc → t.pc = s.pc)
    (hstk : ∀ j : Fin 16, ¬ w (.stackEntry j) → t.stack[j.val] = s.stack[j.val]) (hsp : ¬ w .sp → t.sp = s.sp)
    (hdt : ¬ w .dt → t.dt = s.dt) (hst : ¬ w .st → t.st = s.st)
    (hcell : ∀ p, ¬ w (.cell p) → Display.cell t.disp p = Display.cell s.disp p) (hd : ¬ w .dirty → t.dirty = s.dirty)
    (hk : ∀ k : Fin 16, ¬ w (.key k) → t.key[k.val] = s.key[k.val]) (hq : ¬ w .quirks → t.quirks = s.quirks)
    (hr : ¬ w .run → t.run = s.run) (hm : ∀ a, ¬ w (.memByte a) → t.mem.byte a = s.mem.byte a)
    (hp : ¬ w .params → t.params = s.params) (hdr : ¬ w .draws → t.draws = s.draws) : OnlyChanges w s t := by
  intro c hc
  cases c with
  | vreg x => exact hv x hc
  | index => exact hi hc
  | pc => exact hpc hc
  | stackEntry j => exact hstk j hc
  | sp => exact hsp hc
  | dt => exact hdt hc
  | st => exact hst hc
  | cell p => exact hcell p hc
  | dirty => exact hd hc
  | key k => exact hk k hc
  | quirks => exact hq hc
  | run => exact hr hc
  | memByte a => exact hm a hc
  | params => exact hp hc
  | draws => exact hdr hc

/-- Moving `PC` changes only `PC`. -/
theorem onlyListed_advance (s : State) : OnlyListed [.pc] s (advance s) := by
  apply onlyChanges_of <;> simp

theorem onlyListed_skipIf (c : Bool) (s : State) : OnlyListed [.pc] s (skipIf c s) := by
  apply onlyChanges_of <;> simp

theorem onlyListed_jumpTo (w : Word) (s : State) : OnlyListed [.pc] s (jumpTo w s) := by
  apply onlyChanges_of <;> simp

/-- A register write changes only that register. -/
theorem onlyListed_setVreg (s : State) (x : Reg) (b : Byte) : OnlyListed [.vreg x] s (s.setVreg x b) := by
  apply onlyChanges_of <;> simp +contextual

/-- Raising a fault changes only the run state (R189). -/
theorem onlyListed_raise (s : State) (k : FaultKind) (w : Option Word) : OnlyListed [.run] s (raise s k w) := by
  apply onlyChanges_of <;> simp

end Sys2Proof.Machine
end

