-- ==== Sys2Proof/Laws/Decode.lean ====
section
/-! SUPPORT. Fields and bytes of an encoded word (R70 to R72), one lemma each. -/

namespace Sys2Proof

@[simp] theorem joinBytes_high_low (w : Word) : joinBytes (highByte w) (lowByte w) = w := by
  simp only [joinBytes, highByte, lowByte]; ext i; simp; grind

theorem joinBytes_toNat (hi lo : Byte) : (joinBytes hi lo).toNat = hi.toNat * 256 + lo.toNat := by
  have h := lo.isLt
  rw [joinBytes, BitVec.toNat_append, ← Nat.shiftLeft_add_eq_or_of_lt h, Nat.shiftLeft_eq]

@[simp] theorem regNibble_toFin (r : Reg) : (regNibble r).toFin = r := rfl

@[simp] theorem regNibble_xField (w : Word) : regNibble (xField w) = w.extractLsb' 8 4 := rfl
@[simp] theorem regNibble_yField (w : Word) : regNibble (yField w) = w.extractLsb' 4 4 := rfl

/-! ## The fields of an encoded word -/

@[simp] theorem opField_encNnn (op : BitVec 4) (a : Addr12) : opField (encNnn op a) = op := by
  simp only [opField, encNnn]; ext i; simp; grind
@[simp] theorem nnnField_encNnn (op : BitVec 4) (a : Addr12) : nnnField (encNnn op a) = a := by
  simp only [nnnField, encNnn]; ext i; simp; grind

@[simp] theorem opField_encXkk (op : BitVec 4) (x : Reg) (kk : Byte) : opField (encXkk op x kk) = op := by
  simp only [opField, encXkk]; ext i; simp; grind
@[simp] theorem xField_encXkk (op : BitVec 4) (x : Reg) (kk : Byte) : xField (encXkk op x kk) = x := by
  have : BitVec.extractLsb' 8 4 (encXkk op x kk) = regNibble x := by
    simp only [encXkk]; ext i; simp; grind
  rw [xField, this, regNibble_toFin]
@[simp] theorem kkField_encXkk (op : BitVec 4) (x : Reg) (kk : Byte) : kkField (encXkk op x kk) = kk := by
  simp only [kkField, encXkk]; ext i; simp; grind

@[simp] theorem opField_encXyn (op : BitVec 4) (x y : Reg) (n : BitVec 4) : opField (encXyn op x y n) = op := by
  simp only [opField, encXyn]; ext i; simp; grind
@[simp] theorem xField_encXyn (op : BitVec 4) (x y : Reg) (n : BitVec 4) : xField (encXyn op x y n) = x := by
  have : BitVec.extractLsb' 8 4 (encXyn op x y n) = regNibble x := by
    simp only [encXyn]; ext i; simp; grind
  rw [xField, this, regNibble_toFin]
@[simp] theorem yField_encXyn (op : BitVec 4) (x y : Reg) (n : BitVec 4) : yField (encXyn op x y n) = y := by
  have : BitVec.extractLsb' 4 4 (encXyn op x y n) = regNibble y := by
    simp only [encXyn]; ext i; simp; grind
  rw [yField, this, regNibble_toFin]
@[simp] theorem nField_encXyn (op : BitVec 4) (x y : Reg) (n : BitVec 4) : nField (encXyn op x y n) = n := by
  simp only [nField, encXyn]; ext i; simp; grind

/-! ## A word is its fields -/

theorem encNnn_fields (w : Word) : encNnn (opField w) (nnnField w) = w := by
  simp only [encNnn, opField, nnnField]; ext i; simp; grind
theorem encXkk_fields (w : Word) : encXkk (opField w) (xField w) (kkField w) = w := by
  simp only [encXkk, opField, kkField, regNibble_xField]; ext i; simp; grind
theorem encXyn_fields (w : Word) : encXyn (opField w) (xField w) (yField w) (nField w) = w := by
  simp only [encXyn, opField, nField, regNibble_xField, regNibble_yField]; ext i; simp; grind

end Sys2Proof
end

