-- ==== Sys2Proof/Laws/Step.lean ====
section
/-! SUPPORT. Everything a fetch, a keypad poll and a `STEP` can answer, once each (R70, R77, R163). -/

namespace Sys2Proof.Machine

/-! ## Fetch -/

theorem fetchable_iff (pc : Word) : fetchable pc = true ↔ pc.toNat % 2 = 0 ∧ 0x200 ≤ pc.toNat ∧ pc.toNat ≤ 0xFFE := by
  have : pc.getLsbD 0 = decide (pc.toNat % 2 = 1) := by
    simp [BitVec.getLsbD]
  simp only [fetchable, this, Bool.and_eq_true, decide_eq_true_eq, Bool.not_eq_true', decide_eq_false_iff_not]
  omega

theorem fetchWord_eq_none (s : State) :
    fetchWord s = none ↔ s.pc.toNat % 2 = 1 ∨ s.pc.toNat < 0x200 ∨ s.pc.toNat > 0xFFE := by
  have := fetchable_iff s.pc
  simp only [fetchWord]
  (split <;> simp_all); omega

theorem fetchWord_eq_some {s : State} {w : Word} (h : fetchWord s = some w) :
    s.pc.toNat % 2 = 0 ∧ 0x200 ≤ s.pc.toNat ∧ s.pc.toNat ≤ 0xFFE ∧
      w = joinBytes (s.mem.byte s.pc.toNat) (s.mem.byte (s.pc.toNat + 1)) := by
  have := fetchable_iff s.pc
  simp only [fetchWord] at h
  split at h <;> simp_all

/-- A fetch reads only `PC` and memory. -/
theorem fetchWord_congr {s t : State} (hpc : t.pc = s.pc) (hm : t.mem = s.mem) : fetchWord t = fetchWord s := by
  simp [fetchWord, hpc, hm]

/-! ## The keypad -/

theorem mem_keysDown (s : State) (k : Nat) : k ∈ keysDown s ↔ ∃ h : k < 16, s.key[k] = true := by
  simp only [keysDown, List.mem_filter, List.mem_range]
  constructor
  · rintro ⟨h, hk⟩; exact ⟨h, by simpa [h] using hk⟩
  · rintro ⟨h, hk⟩; exact ⟨h, by simpa [h] using hk⟩

/-- The keys down are listed in rising order. -/
theorem keysDown_sorted (s : State) : (keysDown s).Pairwise (· < ·) := List.pairwise_lt_range.filter _

/-- `KEY_SELECT` answers a member of the set, under any policy (R164). -/
theorem keyChoice_mem (s : State) (k : Nat) (rest : List Nat) : keyChoice s k rest ∈ k :: rest := by
  simp only [keyChoice]
  split
  · simp
  · split
    · assumption
    · simp

/-- Everything a poll can do (R163). -/
theorem pollKeypad_cases (t : Reg) (s : State) :
    (keysDown s = [] ∧ pollKeypad t s = s) ∨
    ∃ k rest, keysDown s = k :: rest ∧
      pollKeypad t s = { s with v := s.v.set t.val (BitVec.ofNat 8 (keyChoice s k rest)), run := .running, pc := s.pc + 2,
                                draws := drawsAfterChoice s } := by
  unfold pollKeypad
  split
  · exact .inl ⟨‹_›, rfl⟩
  · exact .inr ⟨_, _, ‹_›, rfl⟩

/-! ## The step -/

/-- Everything a `STEP` can do (R77). -/
theorem step_cases (s : State) :
    (∃ f, s.run = .halted f ∧ step s = .next s) ∨
    (∃ t, s.run = .awaitingKey t ∧ step s = .next (pollKeypad t s)) ∨
    (s.run = .running ∧ fetchWord s = none ∧ step s = .next (raise s .fetchFault none)) ∨
    (∃ w e, s.run = .running ∧ fetchWord s = some w ∧ decode w = .error e ∧ step s = .next (raise s .decodeError (some w))) ∨
    (∃ w i, s.run = .running ∧ fetchWord s = some w ∧ decode w = .ok i ∧ step s = exec i s) := by
  unfold step
  cases hr : s.run with
  | halted f => exact .inl ⟨f, rfl, rfl⟩
  | awaitingKey t => exact .inr (.inl ⟨t, rfl, rfl⟩)
  | running =>
    refine .inr (.inr ?_)
    cases hf : fetchWord s with
    | none => exact .inl ⟨rfl, rfl, rfl⟩
    | some w =>
      refine .inr ?_
      cases hd : decode w with
      | error e => exact .inl ⟨w, e, rfl, rfl, hd, by simp [hd, raiseDecodeError]⟩
      | ok i => exact .inr ⟨w, i, rfl, rfl, hd, by simp [hd]⟩

end Sys2Proof.Machine
end

