-- ==== Sys2Proof/Laws/PerInstr.lean ====
section
/-! SUPPORT. Facts made per instruction. `WordForm`: the instruction's word selects its own row of the opcode map (R74), so its
fixed bits are the row's, and it is a well-formed word. -/

namespace Sys2Proof.Laws.WordForm

/-- The row of R74 that an instruction stands for. -/
def rowOf : Instr → OpcodeRow
  | .cls => ⟨0xFFFF, 0x00E0⟩
  | .ret => ⟨0xFFFF, 0x00EE⟩
  | .jpNnn _ => ⟨0xF000, 0x1000⟩
  | .callNnn _ => ⟨0xF000, 0x2000⟩
  | .seVxKk _ _ => ⟨0xF000, 0x3000⟩
  | .sneVxKk _ _ => ⟨0xF000, 0x4000⟩
  | .seVxVy _ _ => ⟨0xF00F, 0x5000⟩
  | .ldVxKk _ _ => ⟨0xF000, 0x6000⟩
  | .addVxKk _ _ => ⟨0xF000, 0x7000⟩
  | .ldVxVy _ _ => ⟨0xF00F, 0x8000⟩
  | .orVxVy _ _ => ⟨0xF00F, 0x8001⟩
  | .andVxVy _ _ => ⟨0xF00F, 0x8002⟩
  | .xorVxVy _ _ => ⟨0xF00F, 0x8003⟩
  | .addVxVy _ _ => ⟨0xF00F, 0x8004⟩
  | .subVxVy _ _ => ⟨0xF00F, 0x8005⟩
  | .shrVxVy _ _ => ⟨0xF00F, 0x8006⟩
  | .subnVxVy _ _ => ⟨0xF00F, 0x8007⟩
  | .shlVxVy _ _ => ⟨0xF00F, 0x800E⟩
  | .sneVxVy _ _ => ⟨0xF00F, 0x9000⟩
  | .ldINnn _ => ⟨0xF000, 0xA000⟩
  | .jpV0Nnn _ => ⟨0xF000, 0xB000⟩
  | .rndVxKk _ _ => ⟨0xF000, 0xC000⟩
  | .drwVxVyN _ _ _ => ⟨0xF000, 0xD000⟩
  | .skpVx _ => ⟨0xF0FF, 0xE09E⟩
  | .sknpVx _ => ⟨0xF0FF, 0xE0A1⟩
  | .ldVxDt _ => ⟨0xF0FF, 0xF007⟩
  | .ldVxK _ => ⟨0xF0FF, 0xF00A⟩
  | .ldDtVx _ => ⟨0xF0FF, 0xF015⟩
  | .ldStVx _ => ⟨0xF0FF, 0xF018⟩
  | .addIVx _ => ⟨0xF0FF, 0xF01E⟩
  | .ldFVx _ => ⟨0xF0FF, 0xF029⟩
  | .ldBVx _ => ⟨0xF0FF, 0xF033⟩
  | .ldMemVx _ => ⟨0xF0FF, 0xF055⟩
  | .ldVxMem _ => ⟨0xF0FF, 0xF065⟩

/-- The word selects the instruction's row, and the row is one of the 34. -/
def Statement (i : Instr) : Prop := encode i &&& (rowOf i).mask = (rowOf i).pattern ∧ rowOf i ∈ opcodeMap

theorem ones4 (a : BitVec 4) : a &&& 0xF#4 = a := BitVec.and_allOnes
theorem ones8 (a : BitVec 8) : a &&& 0xFF#8 = a := BitVec.and_allOnes

theorem masked_nnn (op : BitVec 4) (a : Addr12) : encNnn op a &&& 0xF000 = op ++ 0#12 := by
  change (op ++ a) &&& (0xF#4 ++ 0#12) = _
  rw [BitVec.and_append, ones4, BitVec.and_zero]
theorem masked_xkk (op : BitVec 4) (x : Reg) (kk : Byte) : encXkk op x kk &&& 0xF000 = op ++ 0#4 ++ 0#8 := by
  change (op ++ regNibble x ++ kk) &&& (0xF#4 ++ 0#4 ++ 0#8) = _
  rw [BitVec.and_append, BitVec.and_append, ones4, BitVec.and_zero, BitVec.and_zero]
theorem masked_x (op : BitVec 4) (x : Reg) (kk : Byte) : encXkk op x kk &&& 0xF0FF = op ++ 0#4 ++ kk := by
  change (op ++ regNibble x ++ kk) &&& (0xF#4 ++ 0#4 ++ 0xFF#8) = _
  rw [BitVec.and_append, BitVec.and_append, ones4, ones8, BitVec.and_zero]
theorem masked_xy (op : BitVec 4) (x y : Reg) (n : BitVec 4) : encXyn op x y n &&& 0xF00F = op ++ 0#4 ++ 0#4 ++ n := by
  change (op ++ regNibble x ++ regNibble y ++ n) &&& (0xF#4 ++ 0#4 ++ 0#4 ++ 0xF#4) = op ++ 0#4 ++ 0#4 ++ n
  rw [BitVec.and_append, BitVec.and_append, BitVec.and_append, ones4, ones4, BitVec.and_zero, BitVec.and_zero]
theorem masked_xyn (op : BitVec 4) (x y : Reg) (n : BitVec 4) :
    encXyn op x y n &&& 0xF000 = op ++ 0#4 ++ 0#4 ++ 0#4 := by
  change (op ++ regNibble x ++ regNibble y ++ n) &&& (0xF#4 ++ 0#4 ++ 0#4 ++ 0#4) = op ++ 0#4 ++ 0#4 ++ 0#4
  rw [BitVec.and_append, BitVec.and_append, BitVec.and_append, ones4, BitVec.and_zero, BitVec.and_zero, BitVec.and_zero]

theorem cls : Statement .cls := ⟨by decide, by decide⟩
theorem ret : Statement .ret := ⟨by decide, by decide⟩
theorem jpNnn (nnn : Addr12) : Statement (.jpNnn nnn) := ⟨(masked_nnn _ _).trans rfl, by simp [rowOf, opcodeMap]⟩
theorem callNnn (nnn : Addr12) : Statement (.callNnn nnn) := ⟨(masked_nnn _ _).trans rfl, by simp [rowOf, opcodeMap]⟩
theorem seVxKk (x : Reg) (kk : Byte) : Statement (.seVxKk x kk) := ⟨(masked_xkk _ _ _).trans rfl, by simp [rowOf, opcodeMap]⟩
theorem sneVxKk (x : Reg) (kk : Byte) : Statement (.sneVxKk x kk) := ⟨(masked_xkk _ _ _).trans rfl, by simp [rowOf, opcodeMap]⟩
theorem seVxVy (x y : Reg) : Statement (.seVxVy x y) := ⟨(masked_xy _ _ _ _).trans rfl, by simp [rowOf, opcodeMap]⟩
theorem ldVxKk (x : Reg) (kk : Byte) : Statement (.ldVxKk x kk) := ⟨(masked_xkk _ _ _).trans rfl, by simp [rowOf, opcodeMap]⟩
theorem addVxKk (x : Reg) (kk : Byte) : Statement (.addVxKk x kk) := ⟨(masked_xkk _ _ _).trans rfl, by simp [rowOf, opcodeMap]⟩
theorem ldVxVy (x y : Reg) : Statement (.ldVxVy x y) := ⟨(masked_xy _ _ _ _).trans rfl, by simp [rowOf, opcodeMap]⟩
theorem orVxVy (x y : Reg) : Statement (.orVxVy x y) := ⟨(masked_xy _ _ _ _).trans rfl, by simp [rowOf, opcodeMap]⟩
theorem andVxVy (x y : Reg) : Statement (.andVxVy x y) := ⟨(masked_xy _ _ _ _).trans rfl, by simp [rowOf, opcodeMap]⟩
theorem xorVxVy (x y : Reg) : Statement (.xorVxVy x y) := ⟨(masked_xy _ _ _ _).trans rfl, by simp [rowOf, opcodeMap]⟩
theorem addVxVy (x y : Reg) : Statement (.addVxVy x y) := ⟨(masked_xy _ _ _ _).trans rfl, by simp [rowOf, opcodeMap]⟩
theorem subVxVy (x y : Reg) : Statement (.subVxVy x y) := ⟨(masked_xy _ _ _ _).trans rfl, by simp [rowOf, opcodeMap]⟩
theorem shrVxVy (x y : Reg) : Statement (.shrVxVy x y) := ⟨(masked_xy _ _ _ _).trans rfl, by simp [rowOf, opcodeMap]⟩
theorem subnVxVy (x y : Reg) : Statement (.subnVxVy x y) := ⟨(masked_xy _ _ _ _).trans rfl, by simp [rowOf, opcodeMap]⟩
theorem shlVxVy (x y : Reg) : Statement (.shlVxVy x y) := ⟨(masked_xy _ _ _ _).trans rfl, by simp [rowOf, opcodeMap]⟩
theorem sneVxVy (x y : Reg) : Statement (.sneVxVy x y) := ⟨(masked_xy _ _ _ _).trans rfl, by simp [rowOf, opcodeMap]⟩
theorem ldINnn (nnn : Addr12) : Statement (.ldINnn nnn) := ⟨(masked_nnn _ _).trans rfl, by simp [rowOf, opcodeMap]⟩
theorem jpV0Nnn (nnn : Addr12) : Statement (.jpV0Nnn nnn) := ⟨(masked_nnn _ _).trans rfl, by simp [rowOf, opcodeMap]⟩
theorem rndVxKk (x : Reg) (kk : Byte) : Statement (.rndVxKk x kk) := ⟨(masked_xkk _ _ _).trans rfl, by simp [rowOf, opcodeMap]⟩
theorem drwVxVyN (x y : Reg) (n : Fin 16) : Statement (.drwVxVyN x y n) := ⟨(masked_xyn _ _ _ _).trans rfl, by simp [rowOf, opcodeMap]⟩
theorem skpVx (x : Reg) : Statement (.skpVx x) := ⟨(masked_x _ _ _).trans rfl, by simp [rowOf, opcodeMap]⟩
theorem sknpVx (x : Reg) : Statement (.sknpVx x) := ⟨(masked_x _ _ _).trans rfl, by simp [rowOf, opcodeMap]⟩
theorem ldVxDt (x : Reg) : Statement (.ldVxDt x) := ⟨(masked_x _ _ _).trans rfl, by simp [rowOf, opcodeMap]⟩
theorem ldVxK (x : Reg) : Statement (.ldVxK x) := ⟨(masked_x _ _ _).trans rfl, by simp [rowOf, opcodeMap]⟩
theorem ldDtVx (x : Reg) : Statement (.ldDtVx x) := ⟨(masked_x _ _ _).trans rfl, by simp [rowOf, opcodeMap]⟩
theorem ldStVx (x : Reg) : Statement (.ldStVx x) := ⟨(masked_x _ _ _).trans rfl, by simp [rowOf, opcodeMap]⟩
theorem addIVx (x : Reg) : Statement (.addIVx x) := ⟨(masked_x _ _ _).trans rfl, by simp [rowOf, opcodeMap]⟩
theorem ldFVx (x : Reg) : Statement (.ldFVx x) := ⟨(masked_x _ _ _).trans rfl, by simp [rowOf, opcodeMap]⟩
theorem ldBVx (x : Reg) : Statement (.ldBVx x) := ⟨(masked_x _ _ _).trans rfl, by simp [rowOf, opcodeMap]⟩
theorem ldMemVx (x : Reg) : Statement (.ldMemVx x) := ⟨(masked_x _ _ _).trans rfl, by simp [rowOf, opcodeMap]⟩
theorem ldVxMem (x : Reg) : Statement (.ldVxMem x) := ⟨(masked_x _ _ _).trans rfl, by simp [rowOf, opcodeMap]⟩

end Sys2Proof.Laws.WordForm
end

