-- ==== Sys2Proof/Tests/Slice0.lean ====
section
/-! SUPPORT. Tests of the model: ill-formed words refused, words written out from R74 decoded, one `STEP` of each instruction, and
for each statement with hypotheses a witness that meets them. Expected values are those of spec/95_test_vectors.md (`T-…`, `S…`) or
of the examples of the rules named; none was taken from the model. -/

namespace Sys2Proof.Machine.Tests

/-! ## Helpers -/

/-- `s` with the listed V registers set. -/
def regs (l : List (Reg × Byte)) (s : State) : State := l.foldl (fun s p => s.setVreg p.1 p.2) s

/-- `s` with bytes placed in memory. -/
def poke (a : Nat) (bs : List Byte) (s : State) : State := { s with mem := s.mem.setBytes a bs }

/-- The state after an outcome, `State.reset` where it is no next state. -/
def after (o : Host.Outcome State Fault Refusal) : State :=
  match o with
  | .next t => t
  | _ => State.reset

/-- One `STEP` of `s` with word `w` placed at its `PC`. -/
def one (w : Nat) (s : State) : State := after (step (s.withFetchWord 16 w))

/-- The launch state with `PC` elsewhere. -/
def pcAt (pc : Word) : State := { State.reset with pc := pc }

/-- A full call stack. -/
def fullStack : State := { State.reset with sp := 16, pc := 0x300 }

/-- Waiting for a key to V5. -/
def waiting : State := { State.reset with run := .awaitingKey 5 }

/-- Stopped by the fault `FetchFault` at `0x201`. -/
def halted : State := { State.reset with pc := 0x201, run := .halted { kind := .fetchFault, pc := 0x201, word := none } }

/-- The state after loading `12 00`, a jump to itself. -/
def looping : State := State.afterLoad [(0x200, 0x12)] { shiftUsesVx := true, loadStoreIncrementsI := true } Config.defaultParams 0

/-! ## Well-formedness: each of the six checks refuses an ill-formed word (T-E3 to T-E28) -/

theorem test_illformed_family0 : Word.undefined0 0x01E0 = true ∧ Word.wellFormed 0x01E0 = false ∧
    decode 0x01E0 = .error (.undefinedWord 0x01E0) := by decide
theorem test_illformed_family5 : Word.undefined5 0x5121 = true ∧ Word.wellFormed 0x5121 = false ∧
    decode 0x5121 = .error (.undefinedWord 0x5121) := by decide
theorem test_illformed_family8 : Word.undefined8 0x8ABF = true ∧ Word.wellFormed 0x8ABF = false ∧
    decode 0x8ABF = .error (.undefinedWord 0x8ABF) := by decide
theorem test_illformed_family9 : Word.undefined9 0x9AB1 = true ∧ Word.wellFormed 0x9AB1 = false ∧
    decode 0x9AB1 = .error (.undefinedWord 0x9AB1) := by decide
theorem test_illformed_familyE : Word.undefinedE 0xE19F = true ∧ Word.wellFormed 0xE19F = false ∧
    decode 0xE19F = .error (.undefinedWord 0xE19F) := by decide
theorem test_illformed_familyF : Word.undefinedF 0xF075 = true ∧ Word.wellFormed 0xF075 = false ∧
    decode 0xF075 = .error (.undefinedWord 0xF075) := by decide
theorem test_truncated : decodeBytes [0x12] = .error .truncated := by decide

/-! ## Decode: a word of every row of R74, written out bit by bit -/

theorem test_decode_fixed : decode 0b0000000011100000 = .ok .cls ∧ decode 0b0000000011101110 = .ok .ret := by decide
theorem test_decode_nnn : decode 0b0001101010111100 = .ok (.jpNnn 0xABC) ∧ decode 0b0010111111111111 = .ok (.callNnn 0xFFF) ∧
    decode 0b1010001100000000 = .ok (.ldINnn 0x300) ∧ decode 0b1011000100100011 = .ok (.jpV0Nnn 0x123) := by decide
theorem test_decode_xkk : decode 0b0011101001111111 = .ok (.seVxKk 10 0x7F) ∧ decode 0b0100001100101010 = .ok (.sneVxKk 3 0x2A) ∧
    decode 0b0110000100000001 = .ok (.ldVxKk 1 1) ∧ decode 0b0111000100000101 = .ok (.addVxKk 1 5) ∧
    decode 0b1100000100001111 = .ok (.rndVxKk 1 0x0F) := by decide
theorem test_decode_skip_xy : decode 0b0101000100100000 = .ok (.seVxVy 1 2) ∧ decode 0b1001101010110000 = .ok (.sneVxVy 10 11) := by
  decide
theorem test_decode_family8 : decode 0b1000000100100000 = .ok (.ldVxVy 1 2) ∧ decode 0b1000000100100001 = .ok (.orVxVy 1 2) ∧
    decode 0b1000000100100010 = .ok (.andVxVy 1 2) ∧ decode 0b1000000100100011 = .ok (.xorVxVy 1 2) ∧
    decode 0b1000000100100100 = .ok (.addVxVy 1 2) ∧ decode 0b1000000100100101 = .ok (.subVxVy 1 2) ∧
    decode 0b1000000100100110 = .ok (.shrVxVy 1 2) ∧ decode 0b1000101010110111 = .ok (.subnVxVy 10 11) ∧
    decode 0b1000101010111110 = .ok (.shlVxVy 10 11) := by decide
theorem test_decode_draw : decode 0b1101000100101111 = .ok (.drwVxVyN 1 2 15) := by decide
theorem test_decode_familyE : decode 0b1110000110011110 = .ok (.skpVx 1) ∧ decode 0b1110000010100001 = .ok (.sknpVx 0) := by decide
theorem test_decode_familyF : decode 0b1111000100000111 = .ok (.ldVxDt 1) ∧ decode 0b1111010100001010 = .ok (.ldVxK 5) ∧
    decode 0b1111000000010101 = .ok (.ldDtVx 0) ∧ decode 0b1111000000011000 = .ok (.ldStVx 0) ∧
    decode 0b1111001000011110 = .ok (.addIVx 2) ∧ decode 0b1111001100101001 = .ok (.ldFVx 3) ∧
    decode 0b1111000000110011 = .ok (.ldBVx 0) ∧ decode 0b1111001001010101 = .ok (.ldMemVx 2) ∧
    decode 0b1111111101100101 = .ok (.ldVxMem 15) := by decide
/-- Byte order (95_test_vectors.md 2.1): `12 34` is the word `1234`. -/
theorem test_decode_big_endian : decodeBytes [0x12, 0x34, 0x99] = .ok (.jpNnn 0x234, [0x99]) ∧
    decodeTableWord 16 0x1234 = some (.jpNnn 0x234) ∧ decodeTableWord 16 0xF0FF = none := by decide
theorem test_encode : encode (.drwVxVyN 1 2 15) = 0xD12F ∧ encodeBytes (.callNnn 0x210) = [0x22, 0x10] := by decide
theorem test_fetch_word_at_pc : fetchWord ((pcAt 0xFFE).withFetchWord 16 0x1234) = some 0x1234 := by decide

/-! ## Control transfer -/

/-- T-C9. -/
theorem test_ret : (one 0x00EE { pcAt 0x212 with sp := 2, stack := State.reset.stack.set 1 0x0456 }).pc = 0x0456 ∧
    (one 0x00EE { pcAt 0x212 with sp := 2, stack := State.reset.stack.set 1 0x0456 }).sp = 1 := by decide
/-- T-C8. -/
theorem test_ret_underflow : (one 0x00EE State.reset).run =
    .halted { kind := .stackUnderflow, pc := 0x200, word := some 0x00EE } := by decide
/-- T-C1. -/
theorem test_jp : (one 0x1ABC State.reset).pc = 0xABC := by decide
/-- T-C6. -/
theorem test_call : (one 0x2400 { pcAt 0x300 with sp := 15 }).stack[15] = 0x302 ∧ (one 0x2400 { pcAt 0x300 with sp := 15 }).sp = 16 ∧
    (one 0x2400 { pcAt 0x300 with sp := 15 }).pc = 0x400 := by decide
/-- T-C7. -/
theorem test_call_overflow : (one 0x2400 fullStack).run = .halted { kind := .stackOverflow, pc := 0x300, word := some 0x2400 } ∧
    (one 0x2400 fullStack).pc = 0x300 ∧ (one 0x2400 fullStack).sp = 16 := by decide
/-- T-C11, T-C12. -/
theorem test_se_kk : (one 0x332A (regs [(3, 0x2A)] (pcAt 0x300))).pc = 0x304 ∧
    (one 0x332A (regs [(3, 0x2B)] (pcAt 0x300))).pc = 0x302 := by decide
/-- T-C13, R94. -/
theorem test_sne_kk : (one 0x432A (regs [(3, 0x2A)] (pcAt 0x300))).pc = 0x302 ∧
    (one 0x432A (regs [(3, 0x2B)] (pcAt 0x300))).pc = 0x304 := by decide
/-- R95. -/
theorem test_se_xy : (one 0x5120 (regs [(1, 7), (2, 7)] (pcAt 0x220))).pc = 0x224 ∧
    (one 0x5120 (regs [(1, 7), (2, 8)] (pcAt 0x220))).pc = 0x222 := by decide
/-- R96. -/
theorem test_sne_xy : (one 0x9120 (regs [(1, 7), (2, 8)] (pcAt 0x220))).pc = 0x224 ∧
    (one 0x9120 (regs [(1, 7), (2, 7)] (pcAt 0x220))).pc = 0x222 := by decide
/-- T-C22, T-C23. -/
theorem test_jp_v0 : (one 0xBFFF (regs [(0, 0xFF)] State.reset)).pc = 0x10FE ∧
    (one 0xB300 (regs [(0, 4), (3, 8)] State.reset)).pc = 0x304 := by decide

/-! ## Arithmetic -/

/-- T-A1. -/
theorem test_ld_kk : (one 0x6F55 State.reset).vreg 15 = 0x55 ∧ (one 0x6F55 State.reset).pc = 0x202 := by decide
/-- S2, T-A6. -/
theorem test_add_kk : (one 0x7102 (regs [(1, 0xFF)] State.reset)).vreg 1 = 1 ∧ (one 0x7102 (regs [(1, 0xFF)] State.reset)).vreg 15 = 0 ∧
    (one 0x7F01 (regs [(15, 0xFF)] State.reset)).vreg 15 = 0 := by decide
/-- T-A7. -/
theorem test_ld_xy : (one 0x8120 (regs [(2, 0x5A)] State.reset)).vreg 1 = 0x5A := by decide
/-- T-A8. -/
theorem test_or : (one 0x8121 (regs [(1, 0xF0), (2, 0x0F), (15, 7)] State.reset)).vreg 1 = 0xFF ∧
    (one 0x8121 (regs [(1, 0xF0), (2, 0x0F), (15, 7)] State.reset)).vreg 15 = 7 := by decide
/-- T-A9. -/
theorem test_and : (one 0x8122 (regs [(1, 0xF0), (2, 0x3C), (15, 7)] State.reset)).vreg 1 = 0x30 := by decide
/-- T-A10. -/
theorem test_xor : (one 0x8123 (regs [(1, 0xF0), (2, 0x3C), (15, 7)] State.reset)).vreg 1 = 0xCC := by decide
/-- T-A13, T-A14. -/
theorem test_add_carry : (one 0x8124 (regs [(1, 0xFF), (2, 1)] State.reset)).vreg 1 = 0 ∧
    (one 0x8124 (regs [(1, 0xFF), (2, 1)] State.reset)).vreg 15 = 1 ∧
    (one 0x8124 (regs [(1, 0x80), (2, 0x7F)] State.reset)).vreg 15 = 0 := by decide
/-- T-A16, T-A17. -/
theorem test_add_vf : (one 0x8F24 (regs [(15, 0xF0), (2, 0x20)] State.reset)).vreg 15 = 0x10 ∧
    (one 0x81F4 (regs [(1, 0xFF), (15, 1)] State.reset)).vreg 1 = 0 ∧
    (one 0x81F4 (regs [(1, 0xFF), (15, 1)] State.reset)).vreg 15 = 1 := by decide
/-- S4, T-A19. -/
theorem test_sub : (one 0x8125 (regs [(1, 1), (2, 2)] State.reset)).vreg 1 = 0xFF ∧
    (one 0x8125 (regs [(1, 1), (2, 2)] State.reset)).vreg 15 = 0 ∧ (one 0x8125 (regs [(1, 5), (2, 5)] State.reset)).vreg 15 = 1 := by
  decide
/-- T-A23, T-A24. -/
theorem test_sub_vf : (one 0x8F25 (regs [(15, 5), (2, 2)] State.reset)).vreg 15 = 3 ∧
    (one 0x81F5 (regs [(1, 5), (15, 7)] State.reset)).vreg 1 = 0xFE := by decide
/-- T-A28, T-A29. -/
theorem test_shr : (one 0x8126 (regs [(1, 0xAA), (2, 3)] State.reset)).vreg 1 = 1 ∧
    (one 0x8126 (regs [(1, 0xAA), (2, 3)] State.reset)).vreg 15 = 1 ∧
    (one 0x8126 (regs [(1, 3), (2, 0xAA)] { State.reset with quirks := ⟨true, false⟩ })).vreg 1 = 1 := by decide
/-- T-A34. -/
theorem test_shr_vf : (one 0x81F6 (regs [(15, 5)] State.reset)).vreg 1 = 2 ∧ (one 0x81F6 (regs [(15, 5)] State.reset)).vreg 15 = 1 := by
  decide
/-- T-A25, T-A26. -/
theorem test_subn : (one 0x8127 (regs [(1, 2), (2, 5)] State.reset)).vreg 1 = 3 ∧
    (one 0x8127 (regs [(1, 5), (2, 2)] State.reset)).vreg 1 = 0xFD ∧ (one 0x8127 (regs [(1, 5), (2, 2)] State.reset)).vreg 15 = 0 := by
  decide
/-- T-A35, T-A40. -/
theorem test_shl : (one 0x812E (regs [(2, 0x81)] State.reset)).vreg 1 = 2 ∧ (one 0x812E (regs [(2, 0x81)] State.reset)).vreg 15 = 1 ∧
    (one 0x8F0E (regs [(15, 0xC0)] { State.reset with quirks := ⟨true, false⟩ })).vreg 15 = 0x80 := by decide
/-- T-A42: whatever the draw. -/
theorem test_rnd_zero_mask : ∀ s t, exec (.rndVxKk 1 0) s = .next t → t.vreg 1 = 0 := by
  intro s t h; cases h; simp

/-! ## Index register and memory -/

/-- T-M1. -/
theorem test_ld_i : (one 0xAFFF State.reset).i = 0xFFF := by decide
/-- T-M3, T-M4. -/
theorem test_add_i : (one 0xF21E (regs [(2, 1)] { State.reset with i := 0xFFF })).i = 0x1000 ∧
    (one 0xF21E (regs [(2, 2)] { State.reset with i := 0xFFFF })).i = 1 := by decide
/-- T-M5, T-M6. -/
theorem test_ld_f : (one 0xF329 (regs [(3, 0x0A)] State.reset)).i = 0x32 ∧ (one 0xF329 (regs [(3, 0xFF)] State.reset)).i = 0x4FB := by
  decide
/-- T-M7 (255), T-M8b. -/
theorem test_ld_b : (one 0xF033 (regs [(0, 255)] { State.reset with i := 0x300 })).mem =
      (poke 0x300 [2, 5, 5] (State.reset.withFetchWord 16 0xF033)).mem ∧
    (one 0xF033 (regs [(0, 123)] { State.reset with i := 0xFFE })).run =
      .halted { kind := .addressFault, pc := 0x200, word := some 0xF033 } := by decide +kernel
/-- T-M10, T-M12. -/
theorem test_store : (one 0xF255 (regs [(0, 0x11), (1, 0x22), (2, 0x33)] { State.reset with i := 0x400, quirks := ⟨false, true⟩ })).i = 0x403 ∧
    (one 0xF255 (regs [(0, 0x11), (1, 0x22), (2, 0x33)] { State.reset with i := 0x400, quirks := ⟨false, true⟩ })).mem.byte 0x402 = 0x33 ∧
    (one 0xF155 (regs [(0, 0x77), (1, 0x88)] { State.reset with i := 0xFFF })).mem.byte 0xFFF = 0 := by decide +kernel
/-- T-M15, T-M17. -/
theorem test_load : (one 0xF265 (poke 0x300 [2, 3, 4] (regs [(3, 0x99)] { State.reset with i := 0x300 }))).vreg 2 = 4 ∧
    (one 0xF265 (poke 0x300 [2, 3, 4] (regs [(3, 0x99)] { State.reset with i := 0x300 }))).vreg 3 = 0x99 ∧
    (one 0xF065 { State.reset with i := 0x1000 }).run = .halted { kind := .addressFault, pc := 0x200, word := some 0xF065 } := by
  decide +kernel

/-! ## Display, keypad, timers -/

/-- T-D1, its start state; T-D11's, one cell lit and a sprite at column 57. -/
def sprite : State := poke 0x300 [0x80] (regs [(0, 10), (1, 5)] { State.reset with i := 0x300 })
def edge (p : EdgePolicy) : State :=
  poke 0x300 [0x01] (regs [(0, 57)] { State.reset with i := 0x300, disp := Display.setCell Display.clear (0, 0) true,
                                                       params := { edgePolicy := p, keySelect := .least } })

/-- T-D15. -/
theorem test_cls : Display.cell (one 0x00E0 (edge .clip)).disp (0, 0) = false ∧ (one 0x00E0 (edge .clip)).dirty = false := by
  decide +kernel
/-- T-D1. -/
theorem test_draw : Display.cell (one 0xD011 sprite).disp (5, 10) = true ∧ (one 0xD011 sprite).vreg 15 = 0 ∧
    (one 0xD011 sprite).dirty = true ∧ (one 0xD011 (one 0xD011 sprite)).vreg 15 = 1 := by decide +kernel
/-- T-D11. -/
theorem test_draw_edge : (one 0xD011 (edge .clip)).vreg 15 = 0 ∧ Display.cell (one 0xD011 (edge .clip)).disp (0, 0) = true ∧
    (one 0xD011 (edge .wrap)).vreg 15 = 1 ∧ Display.cell (one 0xD011 (edge .wrap)).disp (0, 0) = false := by decide +kernel
/-- T-K1, T-K5. -/
theorem test_skp : (one 0xE49E (regs [(4, 3)] { pcAt 0x240 with key := State.reset.key.set 3 true })).pc = 0x244 ∧
    (one 0xE49E (regs [(4, 0x10)] (pcAt 0x240))).run = .halted { kind := .keyIndexFault, pc := 0x240, word := some 0xE49E } := by
  decide +kernel
/-- T-K3, T-K4. -/
theorem test_sknp : (one 0xE4A1 (regs [(4, 3)] (pcAt 0x240))).pc = 0x244 ∧
    (one 0xE4A1 (regs [(4, 0xF)] { pcAt 0x240 with key := State.reset.key.set 15 true })).pc = 0x242 := by decide +kernel
/-- T-K14. -/
theorem test_ld_vx_dt : (one 0xF107 { State.reset with dt := 5 }).vreg 1 = 5 := by decide
/-- T-K7, T-K10. -/
theorem test_key_wait : (one 0xF50A State.reset).run = .awaitingKey 5 ∧ (one 0xF50A State.reset).pc = 0x200 ∧
    (after (step { waiting with key := (State.reset.key.set 3 true).set 9 true })).vreg 5 = 3 := by decide +kernel
/-- T-K15. -/
theorem test_ld_dt : (one 0xF015 (regs [(0, 10)] State.reset)).dt = 10 := by decide
/-- T-K16. -/
theorem test_ld_st : (one 0xF018 (regs [(0, 0x1E)] State.reset)).st = 30 ∧
    isSoundActive (one 0xF018 (regs [(0, 0x1E)] State.reset)) = true := by decide
/-- T-K18. -/
theorem test_tick : (tick { State.reset with st := 255 }).dt = 0 ∧ (tick { State.reset with st := 255 }).st = 254 := by decide

/-! ## Faults and load -/

/-- T-F1, T-F2. -/
theorem test_fetch_and_decode_faults : (after (step (pcAt 0x201))).run = .halted { kind := .fetchFault, pc := 0x201, word := none } ∧
    (one 0x8018 State.reset).run = .halted { kind := .decodeError, pc := 0x200, word := some 0x8018 } := by decide
/-- R7, R210: a `FONT` byte and a `MEM_INIT` byte other than the defaults are what memory reads after construction. -/
theorem test_construction (font : Vector Byte 80) (memInit : Vector Byte 0xFB0) :
    (constructedMemory (font.set 5 0xAB) memInit).byte 0x005 = 0xAB ∧
    (constructedMemory font (memInit.set 0x2B0 0x5A)).byte 0x300 = 0x5A :=
  ⟨(byte_constructedMemory_font (font.set 5 0xAB) memInit 5 (by decide)).trans (by simp),
   (byte_constructedMemory_memInit font (memInit.set 0x2B0 0x5A) 0x2B0 (by decide)).trans (by simp)⟩
/-- T-F7. -/
theorem test_empty_load : (after (step State.reset)).run = .halted { kind := .decodeError, pc := 0x200, word := some 0 } := by decide
/-- S9: `V1 = 6` and `PC = 0x204` after two steps. -/
theorem test_end_to_end : ((load [0x61, 0x01, 0x71, 0x05] ⟨false, false⟩ halted).map fun s => after (step (after (step s)))).map
    (fun s => (s.vreg 1, s.pc)) = some (6, 0x204) := by decide +kernel

/-! ## Witnesses: concrete inputs that meet the hypotheses of each statement, clause by clause -/

theorem witness_EncodeOfDecode : decode 0xFF65 = .ok (.ldVxMem 15) := by decide

/-- Every row's clause is met, by the word with all its operand bits 0 and by the one with all of them 1. -/
theorem witness_DecodeFollowsTheOpcodeMap : ∀ r ∈ opcodeMap, r.pattern &&& r.mask = r.pattern ∧
    (r.pattern ||| ~~~r.mask) &&& r.mask = r.pattern := by decide

theorem witness_StepRuns_lowest : State.reset.pc.toNat % 2 = 0 ∧ State.reset.pc.toNat = 0x200 ∧ looping.run = .running ∧
    looping.pc.toNat = 0x200 ∧
    decode (BitVec.ofNat 16 ((looping.mem.byte 0x200).toNat * 256 + (looping.mem.byte 0x201).toNat)) = .ok (.jpNnn 0x200) := by decide
theorem witness_StepRuns_highest : (poke 0xFFE [0x00, 0xE0] (pcAt 0xFFE)).run = .running ∧ (pcAt 0xFFE).pc.toNat % 2 = 0 ∧
    decode (BitVec.ofNat 16 (((poke 0xFFE [0x00, 0xE0] (pcAt 0xFFE)).mem.byte 0xFFE).toNat * 256 +
      ((poke 0xFFE [0x00, 0xE0] (pcAt 0xFFE)).mem.byte (0xFFE + 1)).toNat)) = .ok .cls := by decide

theorem witness_BadPc : (pcAt 0x201).run = .running ∧ (pcAt 0x201).pc.toNat % 2 = 1 ∧ (pcAt 0x1FE).pc.toNat < 0x200 ∧
    (pcAt 0x1000).pc.toNat > 0xFFE := by decide

theorem witness_UnrecognisedWord : State.reset.run = .running ∧ fetchWord State.reset = some 0 ∧
    ∀ r ∈ opcodeMap, (0 : Word) &&& r.mask ≠ r.pattern := by decide

/-- Each of the six faults is pending in some running state, and none in another. -/
theorem witness_StepRaises : pendingFault (pcAt 0xFFF) = some .fetchFault ∧ pendingFault State.reset = some .decodeError ∧
    pendingFault (fullStack.withFetchWord 16 0x2400) = some .stackOverflow ∧
    pendingFault (State.reset.withFetchWord 16 0x00EE) = some .stackUnderflow ∧
    pendingFault ({ State.reset with i := 0xFFE }.withFetchWord 16 0xF033) = some .addressFault ∧
    pendingFault ((regs [(4, 16)] State.reset).withFetchWord 16 0xE49E) = some .keyIndexFault ∧ pendingFault looping = none := by
  decide +kernel

theorem witness_FaultEntry : State.reset.Safe ∧
    step State.reset = .next { State.reset with run := .halted { kind := .decodeError, pc := 0x200, word := some 0 } } :=
  ⟨by intro f h; simp [State.reset, State.afterLoad] at h, by rfl⟩

theorem witness_OnlyLoadLeavesHalted : halted.run = .halted { kind := .fetchFault, pc := 0x201, word := none } ∧
    State.event (.setKey 3 true) halted = .next (setKey 3 true halted, .done) ∧
    State.event (.load [] ⟨true, false⟩) halted = .next (State.afterLoad [] ⟨true, false⟩ Config.defaultParams 0, .done) := by
  refine ⟨rfl, rfl, rfl⟩

theorem witness_KeyPoll_up : waiting.run = .awaitingKey 5 ∧ ∀ k : Fin 16, waiting.key[k.val] = false := by decide
theorem witness_KeyPoll_down : (setKey 0 true waiting).run = .awaitingKey 5 ∧ (setKey 0 true waiting).key[0] = true ∧
    (setKey 15 true waiting).key[15] = true := by decide

theorem witness_KeySelect : (setKey 9 true (setKey 3 true waiting)).run = .awaitingKey 5 ∧
    (∃ u, step (setKey 9 true (setKey 3 true waiting)) = .next u) ∧ (setKey 9 true (setKey 3 true waiting)).key[3] = true ∧
    (setKey 9 true (setKey 3 true waiting)).params.keySelect = .least ∧
    (∀ j : Fin 16, j.val < 3 → (setKey 9 true (setKey 3 true waiting)).key[j.val] = false) ∧
    (∀ j : Fin 16, j ≠ 15 → (setKey 15 true waiting).key[j.val] = false) := by
  refine ⟨by decide, ⟨_, rfl⟩, by decide, by decide, by decide, by decide⟩

/-- Both sides of every fault condition, at its boundary (T-C6, T-C7, T-C8, T-C9, T-M8, T-M8b, T-M13, T-M14, T-D4, T-D12, T-D13,
T-K4, T-K5). -/
theorem witness_EveryInstruction : faultOf .cls State.reset = none ∧ faultOf .ret State.reset = some .stackUnderflow ∧
    faultOf .ret fullStack = none ∧ faultOf (.callNnn 0) { fullStack with sp := 15 } = none ∧
    faultOf (.callNnn 0) fullStack = some .stackOverflow ∧ faultOf (.skpVx 4) (regs [(4, 15)] State.reset) = none ∧
    faultOf (.sknpVx 4) (regs [(4, 16)] State.reset) = some .keyIndexFault ∧ faultOf (.ldBVx 0) { State.reset with i := 0xFFD } = none ∧
    faultOf (.ldBVx 0) { State.reset with i := 0xFFE } = some .addressFault ∧
    faultOf (.ldMemVx 15) { State.reset with i := 0xFF0 } = none ∧ faultOf (.ldVxMem 15) { State.reset with i := 0xFF1 } = some .addressFault ∧
    faultOf (.drwVxVyN 0 1 1) { State.reset with i := 0xFFF } = none ∧
    faultOf (.drwVxVyN 0 1 2) { State.reset with i := 0xFFF } = some .addressFault ∧
    faultOf (.drwVxVyN 0 1 15) (regs [(0, 200)] { State.reset with i := 0xFFFF }) = none := by decide

theorem witness_PcAfter : (∃ t, exec (.seVxKk 3 0) State.reset = .next t) ∧ faultOf (.seVxKk 3 0) State.reset = none ∧
    (∃ t, exec .ret State.reset = .next t) ∧ faultOf .ret State.reset ≠ none ∧ (∃ t, exec .ret fullStack = .next t) ∧
    (15 : Fin 16).val + 1 = fullStack.sp.val ∧ (∃ t, exec (.skpVx 0) State.reset = .next t) ∧
    (State.reset.vreg 0).toNat = (0 : Fin 16).val ∧ (∃ t, exec (.callNnn 0x210) State.reset = .next t) ∧
    faultOf (.callNnn 0x210) State.reset = none ∧ (0 : Fin 16).val = State.reset.sp.val ∧
    (∃ t, step (setKey 15 true waiting) = .next t) := by
  refine ⟨⟨_, rfl⟩, by decide, ⟨_, rfl⟩, by decide, ⟨_, rfl⟩, by decide, ⟨_, rfl⟩, by decide, ⟨_, rfl⟩, by decide, by decide, ⟨_, rfl⟩⟩

theorem witness_OnlyTheListed : (∃ t, exec (.ldMemVx 3) State.reset = .next t) ∧ faultOf (.ldMemVx 3) State.reset = none ∧
    (∃ t, exec (.ldMemVx 3) { State.reset with i := 0xFFFF } = .next t) ∧
    faultOf (.ldMemVx 3) { State.reset with i := 0xFFFF } ≠ none ∧ (∃ t, step (setKey 2 true waiting) = .next t) ∧
    Event.tick ≠ .step ∧ ∃ t r, State.event .tick State.reset = .next (t, r) := by
  refine ⟨⟨_, rfl⟩, by decide, ⟨_, rfl⟩, by decide, ⟨_, rfl⟩, by decide, _, _, rfl⟩

theorem witness_RetPops : (0 : Fin 16).val + 1 = { State.reset with sp := (1 : Fin 17) }.sp.val ∧ (15 : Fin 16).val + 1 = fullStack.sp.val ∧
    State.reset.sp.val = 0 := by decide
theorem witness_CallPushes : (0 : Fin 16).val = State.reset.sp.val ∧
    (15 : Fin 16).val = { State.reset with sp := (15 : Fin 17) }.sp.val ∧ fullStack.sp.val = 16 := by decide
theorem witness_CallThenReturn : (15 : Fin 16).val = { State.reset with sp := (15 : Fin 17) }.sp.val := by decide

theorem witness_FlagWriters : (0 : Reg) ≠ regF ∧ (14 : Reg) ≠ regF ∧ ((15 : Reg) = regF ∨ (3 : Reg) = regF) ∧
    ((3 : Reg) = regF ∨ (15 : Reg) = regF) := by decide

theorem witness_Bcd : (0xFFD : Word).toNat + 2 ≤ 0xFFF ∧ (0xFFE : Word).toNat + 2 > 0xFFF := by decide
theorem witness_Bulk : (0xFF0 : Word).toNat + (15 : Reg).val ≤ 0xFFF ∧ (0xFF1 : Word).toNat + (15 : Reg).val > 0xFFF ∧
    ∃ t, exec (.ldMemVx 15) { State.reset with i := 0xFF0 } = .next t := ⟨by decide, by decide, _, rfl⟩

/-- A program that stores over the instruction after the store (program P6). -/
theorem witness_NextFetch : ∃ t, exec (.ldMemVx 1) { pcAt 0x206 with i := 0x208 } = .next t ∧ t.pc.toNat = (0x208 : Word).toNat ∧
    t.pc.toNat % 2 = 0 ∧ 0x200 ≤ t.pc.toNat ∧ (0x208 : Word).toNat + (1 : Reg).val ≤ 0xFFF ∧ 1 ≤ (1 : Reg).val :=
  ⟨_, rfl, by decide, by decide, by decide, by decide, by decide⟩

theorem witness_OffScreen : ((regs [(0, 64)] State.reset).vreg 0).toNat > 63 ∧ ((regs [(1, 32)] State.reset).vreg 1).toNat > 31 := by decide

/-- T-D4 with an on-screen origin, T-D5, T-D12, T-D13: `n = 0` from anywhere, the last byte, one too many. -/
theorem witness_Draw : ((regs [(0, 63), (1, 31)] State.reset).vreg 0).toNat ≤ 63 ∧ ((regs [(0, 63), (1, 31)] State.reset).vreg 1).toNat ≤ 31 ∧
    (0 : Fin 16).val = 0 ∧ (0xFFF : Word).toNat + (1 : Fin 16).val - 1 ≤ 0xFFF ∧
    ((2 : Fin 16).val ≥ 1 ∧ (0xFFF : Word).toNat + (2 : Fin 16).val - 1 > 0xFFF) := by decide

/-- T-D1: a covered cell that is unlit, and after the first draw lit. -/
theorem witness_Draw_collision : let c := spriteCovers .clip sprite.mem 0x300 1 10 5
    c (5, 10) = true ∧ Display.cell sprite.disp (5, 10) = false ∧ (∀ p, c p = true → Display.cell sprite.disp p = false) ∧
    Display.cell (Display.setCell Display.clear (5, 10) true) (5, 10) = true := by decide +kernel

theorem witness_DrawingTwice : (0 : Reg) ≠ regF ∧ (1 : Reg) ≠ regF ∧ faultOf (.drwVxVyN 0 1 1) sprite = none ∧
    (sprite.vreg 0).toNat ≤ 63 ∧ (sprite.vreg 1).toNat ≤ 31 ∧
    ∃ t u, exec (.drwVxVyN 0 1 1) sprite = .next t ∧ exec (.drwVxVyN 0 1 1) t = .next u ∧
      (∃ p, Display.cell sprite.disp p = false ∧ Display.cell t.disp p = true) ∧ (∀ p, Display.cell sprite.disp p = false) := by
  refine ⟨by decide, by decide, by decide +kernel, by decide +kernel, by decide +kernel, _, _, rfl, rfl, ⟨(5, 10), ?_⟩, ?_⟩ <;>
    decide +kernel
/-- The other clause: drawn over a lit cell, the first draw lights none. -/
theorem witness_DrawingTwice_lit : ∀ p,
    Display.cell (one 0xD011 { sprite with disp := Display.setCell Display.clear (5, 10) true }).disp p = true →
      Display.cell (Display.setCell Display.clear (5, 10) true) p = true := by decide +kernel

theorem witness_KeySkips : ((regs [(4, 15)] State.reset).vreg 4).toNat = (15 : Fin 16).val ∧ (State.reset.vreg 4).toNat = (0 : Fin 16).val ∧
    ((regs [(4, 16)] State.reset).vreg 4).toNat > 15 := by decide

theorem witness_Load : ([] : List Byte).length ≤ 0xE00 ∧ (List.replicate 0xE00 (0xAB : Byte)).length = 0xE00 ∧
    (List.replicate 0xE01 (0xAB : Byte)).length > 0xE00 := by
  simp only [List.length_replicate]; decide
/-- The bytes of `MEM_INIT` just below the program, just above it, and the last one. -/
theorem witness_FirstLoad : (0x50 + (0x1AF : Fin 0xFB0).val < 0x200) ∧
    0x200 + [(0x61 : Byte), 0x01].length ≤ 0x50 + (0x1B2 : Fin 0xFB0).val ∧ 0x50 + (0xFAF : Fin 0xFB0).val = 0xFFF := by decide
/-- The bytes below and above the program, and the last byte of a program of greatest length. -/
theorem witness_Load_clauses : 0x1FF < 0x200 ∧ 0x200 + [(0x61 : Byte), 0x01].length ≤ 0x202 ∧
    0xDFF < (List.replicate 0xE00 (0xAB : Byte)).length := by
  simp only [List.length_replicate]; decide

theorem witness_FirstFetch : ∃ t, load [0x61, 0x01, 0x71, 0x05] ⟨false, false⟩ halted = some t := ⟨_, rfl⟩

theorem witness_OnlyLoadLaunches : (∀ bytes q, Event.step ≠ .load bytes q) ∧
    Event.load [0x12, 0x00] ⟨false, true⟩ = .load [0x12, 0x00] ⟨false, true⟩ ∧ [(0x12 : Byte), 0x00].length ≤ 0xE00 := by simp

theorem witness_EndOfRun : looping.endOfRun := ⟨rfl, by decide⟩

theorem witness_AKeyLiftsAHang : waiting.hangs ∧ waiting.run = .awaitingKey 5 := ⟨⟨⟨5, rfl⟩, by decide⟩, rfl⟩

theorem witness_ReadAfterWrite : (0xFFE ≤ 0xFFF ∧ 0xFFF - 0xFFE < [(1 : Byte), 2].length) ∧ 0xFFD < 0xFFE ∧
    0xFFE + [(1 : Byte), 2].length ≤ 0x1000 := by decide

theorem witness_StoresKeep : Memory.wf [(0x300, 1)] = true ∧ ∃ m', memWrite [(0x300, 1)] 0xFFE [7, 0] = some m' := ⟨by decide, _, rfl⟩

/-- The same two bytes written in both orders. -/
theorem witness_EqualMemories : (Memory.set (Memory.set [] 0x300 1) 0x200 2).wf = true ∧
    (Memory.set (Memory.set [] 0x200 2) 0x300 1).wf = true ∧
    ∀ a, Memory.byte (Memory.set (Memory.set [] 0x300 1) 0x200 2) a = Memory.byte (Memory.set (Memory.set [] 0x200 2) 0x300 1) a := by
  refine ⟨by decide, by decide, fun a => ?_⟩
  simp only [byte_set]
  split <;> split <;> first | rfl | omega

theorem witness_StepKeeps : looping.Inv ∧ step looping = .next looping :=
  ⟨⟨by decide, by decide, by decide, by intro t h; simp [looping, State.afterLoad] at h,
    by intro f h; simp [looping, State.afterLoad] at h⟩, by rfl⟩

/-- The run that loads `12 00` on a machine constructed with the defaults, steps once and ticks once. -/
theorem witness_EveryReachable : ∃ s, System.run [.load [0x12, 0x00] ⟨true, true⟩, .step, .tick] (System.powerOn Config.defaultLaunch) =
    .next (.launched s) := by
  rw [System.powerOn, constructedMemory_default]
  exact ⟨_, rfl⟩

end Sys2Proof.Machine.Tests
end

section
/-! SUPPORT. A decoded word is the encoding of its instruction, family by family of R74: the fields of R71 that a pattern fixes and
those an instruction carries make up the whole word. -/

namespace Sys2Proof

theorem encNnn_of_opField {w : Word} {op : BitVec 4} (hop : opField w = op) : encNnn op (nnnField w) = w :=
  hop ▸ encNnn_fields w

theorem encXkk_of_opField {w : Word} {op : BitVec 4} (hop : opField w = op) : encXkk op (xField w) (kkField w) = w :=
  hop ▸ encXkk_fields w

theorem encXkk_of_kkField {w : Word} {op : BitVec 4} {kk : Byte} (hop : opField w = op) (hkk : kkField w = kk) :
    encXkk op (xField w) kk = w :=
  hkk ▸ encXkk_of_opField hop

theorem encXyn_of_nField {w : Word} {op n : BitVec 4} (hop : opField w = op) (hn : nField w = n) :
    encXyn op (xField w) (yField w) n = w :=
  hop ▸ hn ▸ encXyn_fields w

theorem encode_of_decodeFamily0 {w : Word} {i : Instr} (h : decodeFamily0 w = .ok i) : encode i = w := by
  unfold decodeFamily0 at h
  split at h
  · cases h; exact Eq.symm ‹_›
  · split at h
    · cases h; exact Eq.symm ‹_›
    · cases h

/-- The two families of one member, for the member's own constructor `mk`. -/
theorem encode_of_decodeSkipVxVy {w : Word} {i : Instr} {mk : Reg → Reg → Instr} {op : BitVec 4} (hop : opField w = op)
    (hmk : ∀ x y, encode (mk x y) = encXyn op x y 0x0) (h : decodeSkipVxVy w mk = .ok i) : encode i = w := by
  unfold decodeSkipVxVy at h
  split at h
  · cases h; rw [hmk]; exact encXyn_of_nField hop ‹_›
  · cases h

theorem encode_of_decodeFamily8 {w : Word} {i : Instr} (hop : opField w = 0x8) (h : decodeFamily8 w = .ok i) : encode i = w := by
  unfold decodeFamily8 at h
  split at h <;> cases h <;> exact encXyn_of_nField hop ‹_›

theorem encode_of_decodeFamilyE {w : Word} {i : Instr} (hop : opField w = 0xE) (h : decodeFamilyE w = .ok i) : encode i = w := by
  unfold decodeFamilyE at h
  split at h <;> cases h <;> exact encXkk_of_kkField hop ‹_›

theorem encode_of_decodeFamilyF {w : Word} {i : Instr} (hop : opField w = 0xF) (h : decodeFamilyF w = .ok i) : encode i = w := by
  unfold decodeFamilyF at h
  split at h <;> cases h <;> exact encXkk_of_kkField hop ‹_›

/-- No bit of a decoded word is lost (R71, R72, R74; log 1). -/
theorem encode_of_decode {w : Word} {i : Instr} (h : decode w = .ok i) : encode i = w := by
  unfold decode at h
  split at h
  case h_1 => exact encode_of_decodeFamily0 h
  case h_2 hop | h_3 hop | h_11 hop | h_12 hop => cases h; exact encNnn_of_opField hop
  case h_4 hop | h_5 hop | h_7 hop | h_8 hop | h_13 hop => cases h; exact encXkk_of_opField hop
  case h_6 hop => exact encode_of_decodeSkipVxVy hop (fun _ _ => rfl) h
  case h_9 hop => exact encode_of_decodeFamily8 hop h
  case h_10 hop => exact encode_of_decodeSkipVxVy hop (fun _ _ => rfl) h
  case h_14 hop => cases h; exact encXyn_of_nField hop rfl
  case h_15 hop => exact encode_of_decodeFamilyE hop h
  case h_16 =>
    have hop : opField w = 0xF := by
      generalize opField w = op at *
      revert op
      decide
    exact encode_of_decodeFamilyF hop h

end Sys2Proof
end

section
/-! SUPPORT. What an executed instruction can do, once for all 34 (R78, R189): it enters its one fault with nothing else changed, or
it completes in one of six ways, told apart by what they do to `PC`, the stack, memory and the run state. -/

namespace Sys2Proof.Machine

/-! ## Operands -/

theorem addrOperand_toNat (nnn : Addr12) : (addrOperand nnn).toNat = nnn.toNat := by
  have := nnn.isLt
  simp only [addrOperand, BitVec.toNat_setWidth]; omega

theorem byteOperand_toNat (b : Byte) : (byteOperand b).toNat = b.toNat := by
  have := b.isLt
  simp only [byteOperand, BitVec.toNat_setWidth]; omega

/-- `Bnnn`'s target is the true sum, at most `0x10FE` (R24, R97). -/
theorem addrOperand_add_byteOperand_toNat (nnn : Addr12) (b : Byte) :
    (addrOperand nnn + byteOperand b).toNat = nnn.toNat + b.toNat := by
  have := nnn.isLt
  have := b.isLt
  rw [BitVec.toNat_add, addrOperand_toNat, byteOperand_toNat]; omega

/-- Everything `keyOperand` can answer. -/
theorem keyOperand_cases (s : State) (x : Reg) :
    ((s.vreg x).toNat > 15 ∧ keyOperand s x = none) ∨
    ∃ h : (s.vreg x).toNat < 16, keyOperand s x = some ⟨(s.vreg x).toNat, h⟩ := by
  by_cases h : (s.vreg x).toNat < 16
  · exact .inr ⟨h, by simp [keyOperand, h]⟩
  · exact .inl ⟨by omega, by simp [keyOperand, h]⟩

theorem originOffScreen_iff (cx cy : Byte) : originOffScreen cx cy = true ↔ cx.toNat > 63 ∨ cy.toNat > 31 := by
  simp [originOffScreen]

/-! ## The ways to complete -/

/-- The components that fix where the machine goes on: memory, the stack and the run state are as before. -/
structure SameControl (s t : State) : Prop where
  mem : t.mem = s.mem
  stack : t.stack = s.stack
  sp : t.sp = s.sp
  run : t.run = s.run

/-- How instruction `i` completes from `s`. -/
inductive Completes (i : Instr) (s : State) : State → Prop where
  /-- on to the next instruction, or over it -/
  | moves {t : State} (same : SameControl s t) (pc : t.pc = s.pc + 2 ∨ t.pc = s.pc + 4) : Completes i s t
  /-- `1nnn`, `Bnnn`: to an address or to one plus a byte -/
  | jumps (w : Word) (bound : w.toNat ≤ 0x10FE) : Completes i s (jumpTo w s)
  /-- `2nnn` -/
  | calls (nnn : Addr12) (room : s.sp.val < 16) : Completes i s
      (jumpTo (addrOperand nnn) { s with stack := s.stack.set s.sp.val (pcPlus s 2), sp := ⟨s.sp.val + 1, by omega⟩ })
  /-- `00EE` -/
  | returns (entry : 0 < s.sp.val) : Completes i s
      (jumpTo (s.stack[s.sp.val - 1]'(by omega)) { s with sp := ⟨s.sp.val - 1, by omega⟩ })
  /-- `Fx33`, `Fx55`: bytes written inside memory -/
  | stores {t : State} (a : Nat) (bs : List Byte) (inside : a + bs.length ≤ Config.memSize)
      (same : SameControl { s with mem := s.mem.setBytes a bs } t) (pc : t.pc = s.pc + 2) : Completes i s t
  /-- `Fx0A` -/
  | waits (x : Reg) (isWait : i = .ldVxK x) : Completes i s { s with run := .awaitingKey x }

/-- The instruction raises its one fault, and nothing else changes. -/
def Faults (i : Instr) (s : State) : Prop := ∃ k, faultOf i s = some k ∧ exec i s = .next (raise s k (some (encode i)))

/-- The instruction has no fault to raise, and completes. -/
def Runs (i : Instr) (s : State) : Prop := faultOf i s = none ∧ ∃ t, exec i s = .next t ∧ Completes i s t

theorem completes_advance {i : Instr} {s t : State} (hsame : SameControl s t) (hpc : t.pc = s.pc) :
    Completes i s (advance t) :=
  .moves ⟨hsame.mem, hsame.stack, hsame.sp, hsame.run⟩ (.inl (by simp [hpc]))

theorem completes_skipIf (i : Instr) (s : State) (c : Bool) : Completes i s (skipIf c s) :=
  .moves ⟨rfl, rfl, rfl, rfl⟩ (by cases c <;> simp)

/-! ## The instructions with a fault -/

theorem ret_cases (s : State) : Faults .ret s ∨ Runs .ret s := by
  rcases pop_cases s with ⟨hsp, hpop⟩ | ⟨hsp, hpop⟩
  · exact .inl ⟨.stackUnderflow, if_pos hsp, by simp [exec, execRet, hpop]⟩
  · exact .inr ⟨if_neg (Nat.ne_of_gt hsp), _, by simp only [exec, execRet, hpop], .returns hsp⟩

theorem callNnn_cases (nnn : Addr12) (s : State) : Faults (.callNnn nnn) s ∨ Runs (.callNnn nnn) s := by
  rcases push_cases s (pcPlus s 2) with ⟨hsp, hpush⟩ | ⟨hsp, hpush⟩
  · exact .inl ⟨.stackOverflow, if_pos hsp, by simp only [exec, execCallNnn, hpush, raiseAt_eq_raise]⟩
  · exact .inr ⟨if_neg (Nat.ne_of_lt hsp), _, by simp only [exec, execCallNnn, hpush], .calls nnn hsp⟩

/-- `Ex9E`, `ExA1`: a skip on the state of key `V[x]`. -/
theorem keySkip_cases {i : Instr} {s : State} {x : Reg}
    (hfault : faultOf i s = if (s.vreg x).toNat > 15 then some .keyIndexFault else none)
    (hnone : keyOperand s x = none → exec i s = .next (raiseAt s .keyIndexFault i))
    (hsome : ∀ k, keyOperand s x = some k → ∃ c, exec i s = .next (skipIf c s)) : Faults i s ∨ Runs i s := by
  rcases keyOperand_cases s x with ⟨hx, hk⟩ | ⟨hx, hk⟩
  · exact .inl ⟨.keyIndexFault, hfault.trans (if_pos hx), hnone hk⟩
  · obtain ⟨c, hexec⟩ := hsome _ hk
    exact .inr ⟨hfault.trans (if_neg (by omega)), _, hexec, completes_skipIf i s c⟩

/-- `Fx33`, `Fx55`: a store at `I` of the bytes `bs`, with the new `I` left open. -/
theorem store_cases {i : Instr} {s : State} {bs : List Byte} (hlen : 1 ≤ bs.length)
    (hfault : faultOf i s = if s.i.toNat + bs.length - 1 > 0xFFF then some .addressFault else none)
    (hnone : memWrite s.mem s.i.toNat bs = none → exec i s = .next (raiseAt s .addressFault i))
    (hsome : ∀ m, memWrite s.mem s.i.toNat bs = some m → ∃ j, exec i s = .next (advance { s with mem := m, i := j })) :
    Faults i s ∨ Runs i s := by
  cases hw : memWrite s.mem s.i.toNat bs with
  | none =>
    have hout := (memWrite_eq_none _ _ _).1 hw
    exact .inl ⟨.addressFault, hfault.trans (if_pos hout.2), hnone hw⟩
  | some m =>
    obtain ⟨hin, rfl⟩ := memWrite_eq_some hw
    obtain ⟨j, hexec⟩ := hsome _ hw
    have hinside : s.i.toNat + bs.length ≤ Config.memSize := by
      have := hin hlen
      simp only [Config.memSize]; omega
    exact .inr ⟨hfault.trans (if_neg (Nat.not_lt.2 (hin hlen))), _, hexec, .stores _ bs hinside ⟨rfl, rfl, rfl, rfl⟩ rfl⟩

theorem ldVxMem_cases (x : Reg) (s : State) : Faults (.ldVxMem x) s ∨ Runs (.ldVxMem x) s := by
  cases hr : memRead s.mem s.i.toNat (x.val + 1) with
  | none =>
    have hout := (memRead_eq_none _ _ _).1 hr
    exact .inl ⟨.addressFault, if_pos hout.2, by simp [exec, execLdVxMem, hr]⟩
  | some bs =>
    have hin := (memRead_eq_some hr).1 (Nat.le_add_left 1 x.val)
    have hexec : exec (.ldVxMem x) s = .next (advance { s with v := setVregsFrom s.v 0 bs, i := indexAfterBulk s x }) := by
      simp [exec, execLdVxMem, hr]
    exact .inr ⟨if_neg (Nat.not_lt.2 hin), _, hexec, completes_advance ⟨rfl, rfl, rfl, rfl⟩ rfl⟩

theorem drwVxVyN_cases (x y : Reg) (n : Fin 16) (s : State) : Faults (.drwVxVyN x y n) s ∨ Runs (.drwVxVyN x y n) s := by
  by_cases hoff : originOffScreen (s.vreg x) (s.vreg y) = true
  · have hexec : exec (.drwVxVyN x y n) s = .next (advance (s.setVreg regF 0)) := by
      simp only [exec, execDrwVxVyN, if_pos hoff]
    rw [originOffScreen_iff] at hoff
    exact .inr ⟨if_neg fun h => h.1 hoff, _, hexec, completes_advance ⟨rfl, rfl, rfl, rfl⟩ rfl⟩
  · cases hr : memRead s.mem s.i.toNat n.val with
    | none =>
      have hout := (memRead_eq_none _ _ _).1 hr
      have hexec : exec (.drwVxVyN x y n) s = .next (raiseAt s .addressFault (.drwVxVyN x y n)) := by
        simp [exec, execDrwVxVyN, hoff, hr]
      rw [originOffScreen_iff] at hoff
      exact .inl ⟨.addressFault, if_pos ⟨hoff, hout⟩, hexec⟩
    | some sprite =>
      have hin := (memRead_eq_some hr).1
      have hexec : exec (.drwVxVyN x y n) s = .next (advance (drawSprite s (s.vreg x) (s.vreg y) sprite)) := by
        simp [exec, execDrwVxVyN, hoff, hr]
      exact .inr ⟨if_neg fun ⟨_, hn, ha⟩ => Nat.not_lt.2 (hin hn) ha, _, hexec,
        completes_advance ⟨rfl, rfl, rfl, rfl⟩ rfl⟩

/-! ## All 34 -/

/-- Everything an instruction can do, from every state (R78, R180, R188, R189). -/
theorem exec_cases (i : Instr) (s : State) : Faults i s ∨ Runs i s := by
  cases i with
  | ret => exact ret_cases s
  | callNnn nnn => exact callNnn_cases nnn s
  | skpVx x =>
    exact keySkip_cases (x := x) rfl (fun h => by simp [exec, execSkpVx, h])
      (fun k h => ⟨s.key[k.val], by simp [exec, execSkpVx, h]⟩)
  | sknpVx x =>
    exact keySkip_cases (x := x) rfl (fun h => by simp [exec, execSknpVx, h])
      (fun k h => ⟨!s.key[k.val], by simp [exec, execSknpVx, h]⟩)
  | ldBVx x =>
    exact store_cases (bs := bcdDigits (s.vreg x)) (Nat.le_add_left 1 2) rfl (fun h => by simp [exec, execLdBVx, h])
      (fun m h => ⟨s.i, by simp [exec, execLdBVx, h]⟩)
  | ldMemVx x =>
    exact store_cases (bs := vregsUpTo s x) (by simp [vregsUpTo_length]) (by simp [faultOf, vregsUpTo_length])
      (fun h => by simp [exec, execLdMemVx, h]) (fun m h => ⟨indexAfterBulk s x, by simp [exec, execLdMemVx, h]⟩)
  | ldVxMem x => exact ldVxMem_cases x s
  | drwVxVyN x y n => exact drwVxVyN_cases x y n s
  | jpNnn nnn =>
    have := nnn.isLt
    exact .inr ⟨rfl, _, rfl, .jumps _ (by rw [addrOperand_toNat]; omega)⟩
  | jpV0Nnn nnn =>
    have := nnn.isLt
    have := (s.vreg 0).isLt
    exact .inr ⟨rfl, _, rfl, .jumps _ (by rw [addrOperand_add_byteOperand_toNat]; omega)⟩
  | ldVxK x => exact .inr ⟨rfl, _, rfl, .waits x rfl⟩
  | seVxKk x kk | sneVxKk x kk | seVxVy x y | sneVxVy x y => exact .inr ⟨rfl, _, rfl, completes_skipIf _ _ _⟩
  | cls | ldVxKk x kk | addVxKk x kk | ldVxVy x y | orVxVy x y | andVxVy x y | xorVxVy x y | addVxVy x y | subVxVy x y
  | shrVxVy x y | subnVxVy x y | shlVxVy x y | ldINnn nnn | rndVxKk x kk | ldVxDt x | ldDtVx x | ldStVx x | addIVx x
  | ldFVx x =>
    exact .inr ⟨rfl, _, rfl, completes_advance ⟨rfl, rfl, rfl, rfl⟩ rfl⟩

end Sys2Proof.Machine
end

section
/-! SUPPORT. The invariant of a launched machine (Safety.lean), kept by a fault, by each way an instruction completes, by a `STEP`, by
`LOAD` and by every other event; then along every run from power-on. -/

namespace Sys2Proof.Machine

/-! ## What the invariant depends on -/

/-- A fault condition reads only V, `I` and `SP`. -/
theorem faultOf_congr (i : Instr) {s t : State} (hv : t.v = s.v) (hi : t.i = s.i) (hsp : t.sp = s.sp) :
    faultOf i t = faultOf i s := by
  cases i <;> simp [faultOf, vreg_def, hv, hi, hsp]

theorem pendingFault_congr {s t : State} (hv : t.v = s.v) (hi : t.i = s.i) (hpc : t.pc = s.pc) (hsp : t.sp = s.sp)
    (hmem : t.mem = s.mem) : pendingFault t = pendingFault s := by
  simp only [pendingFault, fetchWord_congr hpc hmem, faultOf_congr _ hv hi hsp]

theorem pendingFault_of_decode {s : State} {w : Word} {i : Instr} (hw : fetchWord s = some w) (hi : decode w = .ok i) :
    pendingFault s = faultOf i s := by
  simp [pendingFault, hw, hi]

/-- Timers, display, keypad, quirks, parameters and draws are no part of the invariant. -/
theorem State.Inv.congr {s t : State} (hs : s.Inv) (hv : t.v = s.v) (hi : t.i = s.i) (hpc : t.pc = s.pc)
    (hstack : t.stack = s.stack) (hsp : t.sp = s.sp) (hrun : t.run = s.run) (hmem : t.mem = s.mem) : t.Inv where
  memCanonical := hmem ▸ hs.memCanonical
  pcBound := hpc ▸ hs.pcBound
  stackReturns := by rw [hstack, hsp]; exact hs.stackReturns
  waitsAtKeyWait := by rw [hrun, fetchWord_congr hpc hmem]; exact hs.waitsAtKeyWait
  haltedIsPrecise := by
    rw [hrun, pendingFault_congr hv hi hpc hsp hmem, fetchWord_congr hpc hmem, hpc]; exact hs.haltedIsPrecise

/-- What the invariant asks of a stack entry in use (R90, R92). -/
def ReturnAddress (w : Word) : Prop := w.toNat % 2 = 0 ∧ 0x202 ≤ w.toNat ∧ w.toNat ≤ 0x1000

/-- In `Running` the last two clauses say nothing. -/
theorem inv_of_running {t : State} (hrun : t.run = .running) (hmem : t.mem.wf = true) (hpc : t.pc.toNat ≤ 0x10FE)
    (hstack : ∀ j : Fin 16, j.val < t.sp.val → ReturnAddress t.stack[j.val]) : t.Inv where
  memCanonical := hmem
  pcBound := hpc
  stackReturns := hstack
  waitsAtKeyWait := by simp [hrun]
  haltedIsPrecise := by simp [hrun]

/-! ## `STEP` -/

/-- Raising the pending fault with the fetched word is a precise halt (R189, R190). -/
theorem inv_raise {s : State} {k : FaultKind} (hs : s.Inv) (hk : pendingFault s = some k) : (raise s k (fetchWord s)).Inv where
  memCanonical := hs.memCanonical
  pcBound := hs.pcBound
  stackReturns := hs.stackReturns
  waitsAtKeyWait := by simp
  haltedIsPrecise := by
    rintro f hf
    cases hf
    exact ⟨(pendingFault_congr rfl rfl rfl rfl rfl).trans hk, rfl, rfl⟩

/-- A poll leaves the wait unchanged, or moves on from a `PC` that was fetched. -/
theorem inv_pollKeypad {s : State} {x : Reg} (hs : s.Inv) (hrun : s.run = .awaitingKey x) : (pollKeypad x s).Inv := by
  rcases pollKeypad_cases x s with ⟨-, heq⟩ | ⟨k, rest, -, heq⟩ <;> rw [heq]
  · exact hs
  · obtain ⟨-, -, hhi, -⟩ := fetchWord_eq_some (hs.waitsAtKeyWait x hrun)
    refine inv_of_running rfl hs.memCanonical ?_ hs.stackReturns
    change (s.pc + 2).toNat ≤ 0x10FE
    bv_omega

/-- The address after a fetched instruction is a return address. -/
theorem returnAddress_of_fetched {s : State} {w : Word} (h : fetchWord s = some w) : ReturnAddress (pcPlus s 2) := by
  obtain ⟨heven, hlo, hhi, -⟩ := fetchWord_eq_some h
  have hpc : (pcPlus s 2).toNat = s.pc.toNat + 2 := by rw [pcPlus_eq]; bv_omega
  exact ⟨by omega, by omega, by omega⟩

/-- After a push the entries in use are the pushed one and those that were. -/
theorem returnAddress_push {s : State} {w : Word} (hs : s.Inv) (hw : ReturnAddress w) (hroom : s.sp.val < 16) (j : Fin 16)
    (hj : j.val < s.sp.val + 1) : ReturnAddress (s.stack.set s.sp.val w)[j.val] := by
  rw [Vector.getElem_set]
  split
  · exact hw
  · exact hs.stackReturns j (by omega)

/-- Each way to complete keeps the invariant, from a running state that fetched `i`. -/
theorem inv_of_completes {s t : State} {i : Instr} (hs : s.Inv) (hrun : s.run = .running)
    (hfetch : fetchWord s = some (encode i)) (h : Completes i s t) : t.Inv := by
  obtain ⟨-, -, hpc, -⟩ := fetchWord_eq_some hfetch
  cases h with
  | moves same pc =>
    refine inv_of_running (same.run.trans hrun) (same.mem ▸ hs.memCanonical) ?_ ?_
    · rcases pc with pc | pc <;> rw [pc] <;> bv_omega
    · rw [same.stack, same.sp]; exact hs.stackReturns
  | jumps w bound => exact inv_of_running hrun hs.memCanonical bound hs.stackReturns
  | calls nnn room =>
    have := nnn.isLt
    exact inv_of_running hrun hs.memCanonical (by rw [jumpTo_pc, addrOperand_toNat]; omega)
      (returnAddress_push hs (returnAddress_of_fetched hfetch) room)
  | returns entry =>
    obtain ⟨-, -, htop⟩ := hs.stackReturns ⟨s.sp.val - 1, by omega⟩ (Nat.sub_lt entry Nat.one_pos)
    exact inv_of_running hrun hs.memCanonical (Nat.le_trans htop (by decide))
      fun j hj => hs.stackReturns j (Nat.lt_of_lt_of_le hj (Nat.sub_le _ _))
  | stores a bs inside same pc =>
    refine inv_of_running (same.run.trans hrun) (same.mem ▸ wf_setBytes hs.memCanonical inside) ?_ ?_
    · rw [pc]; bv_omega
    · rw [same.stack, same.sp]; exact hs.stackReturns
  | waits x isWait =>
    exact
      { memCanonical := hs.memCanonical
        pcBound := hs.pcBound
        stackReturns := hs.stackReturns
        waitsAtKeyWait := by
          rintro y hy
          cases hy
          exact isWait ▸ (fetchWord_congr rfl rfl).trans hfetch
        haltedIsPrecise := by simp }

/-- The fetched instruction answers a next state, in which the invariant holds. -/
theorem exec_keeps_inv {s : State} {w : Word} {i : Instr} (hs : s.Inv) (hrun : s.run = .running) (hw : fetchWord s = some w)
    (hi : decode w = .ok i) : ∃ t, exec i s = .next t ∧ t.Inv := by
  have hfetch : fetchWord s = some (encode i) := by rw [encode_of_decode hi, hw]
  rcases exec_cases i s with ⟨k, hk, hexec⟩ | ⟨-, t, hexec, hcompletes⟩
  · exact ⟨_, hexec, hfetch ▸ inv_raise hs ((pendingFault_of_decode hw hi).trans hk)⟩
  · exact ⟨t, hexec, inv_of_completes hs hrun hfetch hcompletes⟩

/-- A `STEP` answers a next state, in which the invariant holds. -/
theorem step_keeps_inv {s : State} (hs : s.Inv) : ∃ t, step s = .next t ∧ t.Inv := by
  rcases step_cases s with ⟨f, -, hstep⟩ | ⟨x, hrun, hstep⟩ | ⟨-, hw, hstep⟩ | ⟨w, e, -, hw, he, hstep⟩ |
    ⟨w, i, hrun, hw, hi, hstep⟩
  · exact ⟨s, hstep, hs⟩
  · exact ⟨_, hstep, inv_pollKeypad hs hrun⟩
  · exact ⟨_, hstep, hw ▸ inv_raise hs (by simp [pendingFault, hw])⟩
  · exact ⟨_, hstep, hw ▸ inv_raise hs (by simp [pendingFault, hw, he])⟩
  · rw [hstep]; exact exec_keeps_inv hs hrun hw hi

/-! ## `LOAD` -/

/-- Everything a `LOAD` can answer (R187, R211). -/
theorem loadInto_cases (mem : Memory) (params : Params) (draws : Nat) (bytes : List Byte) (q : Quirks) :
    (bytes.length > Config.progMax ∧ loadInto mem params draws bytes q = none) ∨
    (bytes.length ≤ Config.progMax ∧
      loadInto mem params draws bytes q = some (State.afterLoad (mem.setBytes Config.progBase bytes) q params draws)) := by
  by_cases h : bytes.length > Config.progMax
  · exact .inl ⟨h, if_pos h⟩
  · exact .inr ⟨Nat.le_of_not_lt h, if_neg h⟩

/-- A loaded machine runs at `0x200` with an empty stack, and the program lies inside memory. -/
theorem inv_afterLoad {mem : Memory} {bytes : List Byte} (q : Quirks) (params : Params) (draws : Nat) (hmem : mem.wf = true)
    (hlen : bytes.length ≤ Config.progMax) : (State.afterLoad (mem.setBytes Config.progBase bytes) q params draws).Inv :=
  inv_of_running rfl (wf_setBytes hmem (Nat.add_le_add_left hlen Config.progBase)) (by decide : (0x200 : Word).toNat ≤ 0x10FE)
    fun j hj => absurd hj (Nat.not_lt_zero j.val)

/-! ## Every event, and every run -/

/-- A host event answers a next state, in which the invariant holds. -/
theorem event_keeps_inv {s : State} (e : Event) (hs : s.Inv) : ∃ t r, State.event e s = .next (t, r) ∧ t.Inv := by
  cases e with
  | step =>
    obtain ⟨t, hstep, ht⟩ := step_keeps_inv hs
    exact ⟨t, .done, by simp only [State.event, hstep], ht⟩
  | load bytes q =>
    rcases loadInto_cases s.mem s.params s.draws bytes q with ⟨-, hload⟩ | ⟨hlen, hload⟩
    · exact ⟨s, .romTooLarge, by simp only [State.event, load, hload], hs⟩
    · exact ⟨_, .done, by simp only [State.event, load, hload], inv_afterLoad q s.params s.draws hs.memCanonical hlen⟩
  | tick | setKey k down | clearDirty => exact ⟨_, _, rfl, hs.congr rfl rfl rfl rfl rfl rfl rfl⟩
  | getFrame | isDirty | isSoundActive => exact ⟨s, _, rfl, hs⟩

/-- The invariant since power-on: of a machine not yet launched, only that its memory is canonical. -/
def System.Inv : System → Prop
  | .constructed mem _ => mem.wf = true
  | .launched s => s.Inv

theorem System.inv_powerOn (l : Launch) : (System.powerOn l).Inv := wf_constructedMemory l.font l.memInit

theorem System.event_keeps_inv {m m' : System} {e : Event} {r : Reply} (hm : m.Inv) (h : System.event e m = .next (m', r)) :
    m'.Inv := by
  cases m with
  | launched s =>
    obtain ⟨t, r', hevent, ht⟩ := Machine.event_keeps_inv e hm
    simp only [System.event, hevent] at h
    cases h
    exact ht
  | constructed mem params =>
    cases e with
    | load bytes q =>
      rcases loadInto_cases mem params 0 bytes q with ⟨-, hload⟩ | ⟨hlen, hload⟩ <;>
        simp only [System.event, hload] at h <;> cases h
      · exact hm
      · exact inv_afterLoad q params 0 hm hlen
    | step | tick | setKey k down | getFrame | isDirty | clearDirty | isSoundActive => cases h

theorem System.run_keeps_inv {es : List Event} {m m' : System} (hm : m.Inv) (h : System.run es m = .next m') : m'.Inv := by
  induction es generalizing m with
  | nil => cases h; exact hm
  | cons e es ih =>
    simp only [System.run] at h
    split at h
    · exact ih (System.event_keeps_inv hm ‹_›) h
    · cases h
    · cases h

/-- Settles O57: a `STEP` by what it can do, `LOAD` by the state it leaves, and the other events write nothing the invariant
reads. -/
theorem everyEventKeepsTheInvariant : Obligations.EveryEventKeepsTheInvariant := fun _ e hs => event_keeps_inv e hs

/-- Settles O58, by induction on the events, from canonical memory at power-on. -/
theorem everyReachableStateMeetsTheInvariant : Obligations.EveryReachableStateMeetsTheInvariant :=
  fun _ l _ h => System.run_keeps_inv (System.inv_powerOn l) h

end Sys2Proof.Machine
end

section
/-! SUPPORT. The memory a first `LOAD` leaves: the program over `FONT` and `MEM_INIT`. -/

namespace Sys2Proof.Machine

/-- A `LOAD` that is not too large launches a machine just constructed. -/
theorem System.event_load_constructed (mem : Memory) (params : Params) {bytes : List Byte} (q : Quirks)
    (hlen : bytes.length ≤ Config.progMax) : System.event (.load bytes q) (.constructed mem params) =
      .next (.launched (State.afterLoad (mem.setBytes Config.progBase bytes) q params 0), .done) := by
  rcases loadInto_cases mem params 0 bytes q with ⟨hlong, -⟩ | ⟨-, hload⟩
  · exact absurd hlen (Nat.not_le_of_lt hlong)
  · simp only [System.event, hload]

/-- Settles O59: the program is read back inside its range, and outside it the constructed memory is. -/
theorem firstLoadLeavesFontProgramAndMemInit : Obligations.FirstLoadLeavesFontProgramAndMemInit := by
  intro l bytes q hlen
  refine ⟨_, System.event_load_constructed _ l.params q hlen, rfl, fun j => ?font, fun j hj => ?program, fun j hj => ?memInit⟩
  case font =>
    have hbelow : j.val < Config.progBase := Nat.lt_trans j.isLt (by decide)
    exact (byte_setBytes_outside _ _ _ _ (.inl hbelow)).trans (byte_constructedMemory_font l.font l.memInit j.val j.isLt)
  case program => exact byte_setBytes_inside _ _ j bytes hj
  case memInit =>
    exact (byte_setBytes_outside _ _ _ _ hj).trans (byte_constructedMemory_memInit l.font l.memInit j.val j.isLt)

end Sys2Proof.Machine
end

section
/-! SUPPORT. Frames written operation by operation: what one write adds to what may have changed (R22, R36). -/

namespace Sys2Proof.Machine

section
variable {w : Component → Prop} {s t : State}

/-! ## One write more -/

/-- A listed frame is a frame of every `w` that admits the listed components. -/
theorem OnlyListed.onlyChanges {cs : List Component} (h : OnlyListed cs s t) (hcs : ∀ c ∈ cs, w c) : OnlyChanges w s t :=
  OnlyChanges.mono h hcs

theorem OnlyChanges.then_advance (h : OnlyChanges w s t) (hpc : w .pc) : OnlyChanges w s (advance t) :=
  h.trans ((onlyListed_advance t).onlyChanges (by simpa using hpc))

theorem OnlyChanges.then_skipIf (h : OnlyChanges w s t) (hpc : w .pc) (c : Bool) : OnlyChanges w s (skipIf c t) :=
  h.trans ((onlyListed_skipIf c t).onlyChanges (by simpa using hpc))

theorem OnlyChanges.then_jumpTo (h : OnlyChanges w s t) (hpc : w .pc) (a : Word) : OnlyChanges w s (jumpTo a t) :=
  h.trans ((onlyListed_jumpTo a t).onlyChanges (by simpa using hpc))

theorem OnlyChanges.then_setVreg (h : OnlyChanges w s t) {x : Reg} (hx : w (.vreg x)) (b : Byte) :
    OnlyChanges w s (t.setVreg x b) :=
  h.trans ((onlyListed_setVreg t x b).onlyChanges (by simpa using hx))

theorem OnlyChanges.then_raise (h : OnlyChanges w s t) (hrun : w .run) (k : FaultKind) (word : Option Word) :
    OnlyChanges w s (raise t k word) :=
  h.trans ((onlyListed_raise t k word).onlyChanges (by simpa using hrun))

/-- "VF first, then `V[x]`" (R81): both registers may change. -/
theorem OnlyChanges.then_writeFlagThenResult (h : OnlyChanges w s t) {x : Reg} (hx : w (.vreg x)) (hF : w (.vreg regF))
    (flag result : Byte) : OnlyChanges w s (writeFlagThenResult t x flag result) :=
  (h.then_setVreg hF flag).then_setVreg hx result

/-- Writing the value `I` already has is no change. -/
theorem OnlyChanges.then_setIndex (h : OnlyChanges w s t) {a : Word} (hi : w .index ∨ a = t.i) :
    OnlyChanges w s { t with i := a } := by
  refine h.trans ?_
  apply onlyChanges_of
  case hi => exact fun hw => hi.resolve_left hw
  all_goals intros; rfl

theorem OnlyChanges.then_setMem (h : OnlyChanges w s t) {m : Memory}
    (hm : ∀ a, ¬ w (.memByte a) → m.byte a = t.mem.byte a) : OnlyChanges w s { t with mem := m } := by
  refine h.trans ?_
  apply onlyChanges_of
  case hm => exact hm
  all_goals intros; rfl

theorem OnlyChanges.then_setRegs (h : OnlyChanges w s t) {v : Vector Byte 16}
    (hv : ∀ x : Reg, ¬ w (.vreg x) → v[x.val] = t.v[x.val]) : OnlyChanges w s { t with v := v } := by
  refine h.trans ?_
  apply onlyChanges_of
  case hv => exact hv
  all_goals intros; rfl

theorem OnlyChanges.then_setDisp (h : OnlyChanges w s t) {d : Display} (hcell : ∀ p, w (.cell p)) :
    OnlyChanges w s { t with disp := d } := by
  refine h.trans ?_
  apply onlyChanges_of
  case hcell => exact fun p hp => absurd (hcell p) hp
  all_goals intros; rfl

/-- The bytes a store that passed the check may change are the stored ones. -/
theorem OnlyChanges.then_memWrite {bs : List Byte} {m : Memory} {a : Nat}
    (h : OnlyChanges w s t) (hw : memWrite t.mem a bs = some m) (hin : ∀ b, a ≤ b ∧ b < a + bs.length → w (.memByte b)) :
    OnlyChanges w s { t with mem := m } := by
  obtain ⟨-, rfl⟩ := memWrite_eq_some hw
  refine h.then_setMem fun b hb => byte_setBytes_outside _ _ _ _ ?_
  by_contra hout
  exact hb (hin b (by omega))

end

end Sys2Proof.Machine
end

section
/-! SUPPORT. R36, the writers of each component: the frame of each instruction, of the key poll and of each host event. -/

namespace Sys2Proof.Machine

/-- What an instruction may change if it may also halt: its row of R36, and the run state. -/
def mayWriteOrHalt (i : Instr) (s : State) (c : Component) : Prop := c = .run ∨ mayWrite i s c

/-- `i` answers a next state and changes no component but those. -/
def FramedBy (i : Instr) (s : State) : Prop := ∃ t, exec i s = .next t ∧ OnlyChanges (mayWriteOrHalt i s) s t

/-- Every instruction but `Fx0A` may move `PC`. -/
theorem mayWriteOrHalt_pc {i : Instr} (s : State) (hi : ∀ x, i ≠ .ldVxK x) : mayWriteOrHalt i s .pc := Or.inr hi

/-- An instruction that does nothing but move on after the changes that lead to `t`. -/
theorem framedBy_advance {i : Instr} {s t : State} (hi : ∀ x, i ≠ .ldVxK x) (hexec : exec i s = .next (advance t))
    (h : OnlyChanges (mayWriteOrHalt i s) s t) : FramedBy i s :=
  ⟨_, hexec, h.then_advance (mayWriteOrHalt_pc s hi)⟩

theorem framedBy_skipIf {i : Instr} {s : State} {c : Bool} (hi : ∀ x, i ≠ .ldVxK x) (hexec : exec i s = .next (skipIf c s)) :
    FramedBy i s :=
  ⟨_, hexec, (OnlyChanges.refl _ s).then_skipIf (mayWriteOrHalt_pc s hi) c⟩

theorem framedBy_jumpTo {i : Instr} {s t : State} {a : Word} (hi : ∀ x, i ≠ .ldVxK x) (hexec : exec i s = .next (jumpTo a t))
    (h : OnlyChanges (mayWriteOrHalt i s) s t) : FramedBy i s :=
  ⟨_, hexec, h.then_jumpTo (mayWriteOrHalt_pc s hi) a⟩

theorem framedBy_raiseAt {i : Instr} {s : State} {k : FaultKind} (hexec : exec i s = .next (raiseAt s k i)) : FramedBy i s :=
  ⟨_, hexec, (OnlyChanges.refl _ s).then_raise (Or.inl rfl) k _⟩

/-- One register is written. -/
theorem framedBy_setVreg {i : Instr} {s : State} {x : Reg} {b : Byte} (hi : ∀ x, i ≠ .ldVxK x) (hx : writesVreg i x)
    (hexec : exec i s = .next (advance (s.setVreg x b))) : FramedBy i s :=
  framedBy_advance hi hexec ((OnlyChanges.refl _ s).then_setVreg (Or.inr hx) b)

/-- A result and its flag are written. -/
theorem framedBy_writeFlagThenResult {i : Instr} {s : State} {x : Reg} {f r : Byte} (hi : ∀ x, i ≠ .ldVxK x)
    (hx : writesVreg i x) (hF : writesVreg i regF) (hexec : exec i s = .next (advance (writeFlagThenResult s x f r))) :
    FramedBy i s :=
  framedBy_advance hi hexec ((OnlyChanges.refl _ s).then_writeFlagThenResult (Or.inr hx) (Or.inr hF) f r)

/-- `I` is written. -/
theorem framedBy_setIndex {i : Instr} {s : State} {a : Word} (hi : ∀ x, i ≠ .ldVxK x) (ha : mayWrite i s .index)
    (hexec : exec i s = .next (advance { s with i := a })) : FramedBy i s :=
  framedBy_advance hi hexec ((OnlyChanges.refl _ s).then_setIndex (Or.inl (Or.inr ha)))

/-- Without the quirk a bulk store or load keeps `I` (R134, R135). -/
theorem indexAfterBulk_of_not_quirk {s : State} (x : Reg) (h : ¬ s.quirks.loadStoreIncrementsI = true) :
    indexAfterBulk s x = s.i := if_neg h

theorem ret_framed (s : State) : FramedBy .ret s := by
  rcases pop_cases s with ⟨-, hpop⟩ | ⟨hsp, hpop⟩
  · exact framedBy_raiseAt (by rw [exec, execRet, hpop])
  · refine framedBy_jumpTo nofun (by rw [exec, execRet, hpop]) ?_
    apply onlyChanges_of <;> simp [mayWriteOrHalt, mayWrite, vreg_def]

theorem callNnn_framed (nnn : Addr12) (s : State) : FramedBy (.callNnn nnn) s := by
  rcases push_cases s (pcPlus s 2) with ⟨-, hpush⟩ | ⟨hsp, hpush⟩
  · exact framedBy_raiseAt (by rw [exec, execCallNnn, hpush])
  · refine framedBy_jumpTo nofun (by rw [exec, execCallNnn, hpush]) ?_
    apply onlyChanges_of
    case hstk =>
      intro j hj
      exact Vector.getElem_set_ne hsp j.isLt fun hj' => hj (Or.inr ⟨⟨nnn, rfl⟩, hj'.symm⟩)
    all_goals simp [mayWriteOrHalt, mayWrite, vreg_def]

/-- `Ex9E`, `ExA1`: a skip on the state of key `V[x]`. -/
theorem keySkip_framed {i : Instr} {s : State} {x : Reg} (hi : ∀ x, i ≠ .ldVxK x)
    (hnone : keyOperand s x = none → exec i s = .next (raiseAt s .keyIndexFault i))
    (hsome : ∀ k, keyOperand s x = some k → ∃ c, exec i s = .next (skipIf c s)) : FramedBy i s := by
  cases hk : keyOperand s x with
  | none => exact framedBy_raiseAt (hnone hk)
  | some k =>
    obtain ⟨c, hexec⟩ := hsome k hk
    exact framedBy_skipIf hi hexec

theorem ldBVx_framed (x : Reg) (s : State) : FramedBy (.ldBVx x) s := by
  cases hw : memWrite s.mem (dataAddress s) (bcdDigits (s.vreg x)) with
  | none => exact framedBy_raiseAt (by rw [exec, execLdBVx, hw])
  | some m =>
    exact framedBy_advance nofun (by rw [exec, execLdBVx, hw])
      ((OnlyChanges.refl _ s).then_memWrite hw fun b hb => Or.inr hb)

theorem ldMemVx_framed (x : Reg) (s : State) : FramedBy (.ldMemVx x) s := by
  cases hw : memWrite s.mem (dataAddress s) (vregsUpTo s x) with
  | none => exact framedBy_raiseAt (by rw [exec, execLdMemVx, hw])
  | some m =>
    refine framedBy_advance nofun (by rw [exec, execLdMemVx, hw]) ?_
    have hmem : OnlyChanges (mayWriteOrHalt (.ldMemVx x) s) s { s with mem := m } :=
      (OnlyChanges.refl _ s).then_memWrite hw fun b hb => Or.inr (by rwa [vregsUpTo_length] at hb)
    exact hmem.then_setIndex ((em _).imp Or.inr (indexAfterBulk_of_not_quirk x))

theorem ldVxMem_framed (x : Reg) (s : State) : FramedBy (.ldVxMem x) s := by
  cases hr : memRead s.mem (dataAddress s) (x.val + 1) with
  | none => exact framedBy_raiseAt (by rw [exec, execLdVxMem, hr])
  | some bs =>
    refine framedBy_advance nofun (by rw [exec, execLdVxMem, hr]) ?_
    have hregs : OnlyChanges (mayWriteOrHalt (.ldVxMem x) s) s { s with v := setVregsFrom s.v 0 bs } := by
      refine (OnlyChanges.refl _ s).then_setRegs fun r hr' => ?_
      have habove : ¬ r.val ≤ x.val := fun hle => hr' (Or.inr hle)
      obtain ⟨-, hlen, -⟩ := memRead_eq_some hr
      rw [setVregsFrom_getElem, dif_neg (by omega)]
    exact hregs.then_setIndex ((em _).imp Or.inr (indexAfterBulk_of_not_quirk x))

/-- Drawing writes cells, the collision flag and `dirty` (R151). -/
theorem drawSprite_frame (s : State) (cx cy : Byte) (sprite : List Byte) :
    OnlyChanges (fun c => c = .dirty ∨ c = .vreg regF ∨ ∃ p, c = .cell p) s (drawSprite s cx cy sprite) := by
  apply onlyChanges_of
  case hv =>
    intro r hr
    exact Vector.getElem_set_ne regF.isLt r.isLt fun hF => hr (by simp [Fin.ext hF])
  all_goals simp

theorem drwVxVyN_framed (x y : Reg) (n : Fin 16) (s : State) : FramedBy (.drwVxVyN x y n) s := by
  by_cases hoff : originOffScreen (s.vreg x) (s.vreg y) = true
  · exact framedBy_setVreg nofun rfl (by rw [exec, execDrwVxVyN, if_pos hoff])
  · cases hr : memRead s.mem (dataAddress s) n.val with
    | none => exact framedBy_raiseAt (by rw [exec, execDrwVxVyN, if_neg hoff, hr])
    | some sprite =>
      refine framedBy_advance nofun (by rw [exec, execDrwVxVyN, if_neg hoff, hr]) ?_
      refine (drawSprite_frame s _ _ sprite).mono ?_
      rintro c (rfl | rfl | ⟨p, rfl⟩)
      · exact Or.inr ⟨x, y, n, rfl⟩
      · exact Or.inr rfl
      · exact Or.inr (Or.inr ⟨x, y, n, rfl⟩)

/-- All 34, whether the fault is raised or not. -/
theorem exec_framed (i : Instr) (s : State) : FramedBy i s := by
  cases i with
  | ret => exact ret_framed s
  | callNnn nnn => exact callNnn_framed nnn s
  | skpVx x =>
    exact keySkip_framed nofun (fun h => by rw [exec, execSkpVx, h]) (fun k h => ⟨s.key[k.val], by rw [exec, execSkpVx, h]⟩)
  | sknpVx x =>
    exact keySkip_framed nofun (fun h => by rw [exec, execSknpVx, h])
      (fun k h => ⟨!s.key[k.val], by rw [exec, execSknpVx, h]⟩)
  | ldBVx x => exact ldBVx_framed x s
  | ldMemVx x => exact ldMemVx_framed x s
  | ldVxMem x => exact ldVxMem_framed x s
  | drwVxVyN x y n => exact drwVxVyN_framed x y n s
  | jpNnn nnn | jpV0Nnn nnn => exact framedBy_jumpTo nofun rfl (OnlyChanges.refl _ s)
  | seVxKk x kk | sneVxKk x kk | seVxVy x y | sneVxVy x y => exact framedBy_skipIf nofun rfl
  | ldVxKk x kk | addVxKk x kk | ldVxVy x y | orVxVy x y | andVxVy x y | xorVxVy x y | ldVxDt x =>
    exact framedBy_setVreg nofun rfl rfl
  | addVxVy x y | subVxVy x y | shrVxVy x y | subnVxVy x y | shlVxVy x y =>
    exact framedBy_writeFlagThenResult nofun (Or.inl rfl) (Or.inr rfl) rfl
  | ldINnn nnn | addIVx x | ldFVx x => exact framedBy_setIndex nofun trivial rfl
  | rndVxKk x kk =>
    have hdraw : OnlyChanges (mayWriteOrHalt (.rndVxKk x kk) s) s (drawByte s).2 := by
      apply onlyChanges_of <;> simp [mayWriteOrHalt, mayWrite]
    exact framedBy_advance nofun rfl (hdraw.then_setVreg (Or.inr rfl) _)
  | cls => exact framedBy_advance nofun rfl ((OnlyChanges.refl _ s).then_setDisp fun p => Or.inr (Or.inl rfl))
  | ldDtVx x | ldStVx x =>
    refine framedBy_advance nofun rfl ?_
    apply onlyChanges_of <;> simp [mayWriteOrHalt, mayWrite, vreg_def]
  | ldVxK x =>
    refine ⟨_, rfl, ?_⟩
    apply onlyChanges_of <;> simp [mayWriteOrHalt, vreg_def]

/-! ## The run state, with and without a fault -/

/-- Completing changes the run state only for `Fx0A`. -/
theorem run_of_completes {i : Instr} {s t : State} (h : Completes i s t) : mayWrite i s .run ∨ t.run = s.run := by
  cases h with
  | moves same | stores _ _ _ same => exact .inr same.run
  | jumps | calls | returns => exact .inr rfl
  | waits x isWait => exact .inl ⟨x, isWait⟩

/-- An instruction that runs writes only what R36 lists for it. -/
theorem exec_frame_of_runs {i : Instr} {s t : State} (hexec : exec i s = .next t) (hcompletes : Completes i s t) :
    OnlyChanges (mayWrite i s) s t := by
  obtain ⟨u, hu, hframe⟩ := exec_framed i s
  obtain rfl := Host.Outcome.next.inj (hexec.symm.trans hu)
  intro c hc
  by_cases hrun : c = .run
  · subst hrun; exact (run_of_completes hcompletes).resolve_left hc
  · exact hframe c (not_or.2 ⟨hrun, hc⟩)

/-- The frame of an instruction, with and without its fault (R36, R189). -/
theorem exec_frame {i : Instr} {s t : State} (hexec : exec i s = .next t) :
    (faultOf i s = none → OnlyChanges (mayWrite i s) s t) ∧ (faultOf i s ≠ none → OnlyListed [.run] s t) := by
  rcases exec_cases i s with ⟨k, hk, hraise⟩ | ⟨hnone, u, hu, hcompletes⟩
  · obtain rfl := Host.Outcome.next.inj (hexec.symm.trans hraise)
    exact ⟨fun h => by simp [hk] at h, fun _ => onlyListed_raise s k _⟩
  · obtain rfl := Host.Outcome.next.inj (hexec.symm.trans hu)
    exact ⟨fun _ => exec_frame_of_runs hexec hcompletes, fun h => absurd hnone h⟩

/-! ## The key poll and the host events -/

/-- The completion of `Fx0A` (R163). -/
theorem pollKeypad_frame (x : Reg) (s : State) : OnlyListed [.vreg x, .pc, .run, .draws] s (pollKeypad x s) := by
  rcases pollKeypad_cases x s with ⟨-, heq⟩ | ⟨k, rest, -, heq⟩ <;> rw [heq]
  · exact OnlyChanges.refl _ s
  · refine ((onlyListed_setVreg s x (BitVec.ofNat 8 (keyChoice s k rest))).onlyChanges (by simp)).trans ?_
    apply onlyChanges_of
    case hv => exact fun _ _ => rfl
    all_goals simp

theorem tick_frame (s : State) : OnlyListed [.dt, .st] s (tick s) := by
  apply onlyChanges_of <;> simp [vreg_def]

theorem setKey_frame (k : Fin 16) (down : Bool) (s : State) : OnlyListed [.key k] s (setKey k down s) := by
  apply onlyChanges_of
  case hk =>
    intro j hj
    exact Vector.getElem_set_ne k.isLt j.isLt fun hkj => hj (by simp [Fin.ext hkj])
  all_goals simp [vreg_def]

theorem clearDirty_frame (s : State) : OnlyListed [.dirty] s (clearDirty s) := by
  apply onlyChanges_of <;> simp [vreg_def]

/-- `LOAD` keeps the parameters, the draws and every byte outside the program. -/
theorem load_frame {bytes : List Byte} {q : Quirks} {s t : State} (h : load bytes q s = some t) :
    OnlyChanges (eventMayWrite (.load bytes q)) s t := by
  rcases loadInto_cases s.mem s.params s.draws bytes q with ⟨-, hload⟩ | ⟨-, hload⟩ <;> rw [load, hload] at h <;> cases h
  apply onlyChanges_of
  case hm =>
    intro a ha
    refine byte_setBytes_outside _ _ _ _ ?_
    by_contra hout
    exact ha (show Config.progBase ≤ a ∧ a < Config.progBase + bytes.length by omega)
  case hp | hdr => exact fun _ => rfl
  all_goals simp [eventMayWrite]

/-- Each host event but `STEP` writes only what R36 lists for it. -/
theorem event_frame {e : Event} {s t : State} {r : Reply} (he : e ≠ .step) (h : State.event e s = .next (t, r)) :
    OnlyChanges (eventMayWrite e) s t := by
  cases e with
  | step => exact absurd rfl he
  | load bytes q =>
    simp only [State.event] at h
    split at h <;> cases h
    · exact load_frame ‹_›
    · exact OnlyChanges.refl _ s
  | tick => cases h; exact (tick_frame s).onlyChanges (by simp [eventMayWrite])
  | setKey k down => cases h; exact (setKey_frame k down s).onlyChanges (by simp [eventMayWrite])
  | clearDirty => cases h; exact (clearDirty_frame s).onlyChanges (by simp [eventMayWrite])
  | getFrame | isDirty | isSoundActive => cases h; exact OnlyChanges.refl _ s

/-- Settles O16, by the frames of the instructions, of the poll and of the events. -/
theorem onlyTheListedWritersWrite : Obligations.OnlyTheListedWritersWrite := by
  refine ⟨fun i s t => exec_frame, fun s t x hrun hstep => ?_, fun e s t r => event_frame⟩
  have hpoll : step s = .next (pollKeypad x s) := by simp only [step, hrun]
  rw [hpoll] at hstep
  cases hstep
  exact pollKeypad_frame x s

end Sys2Proof.Machine
end

section
/-! SUPPORT. A call and the return that undoes it; `n` ticks; the state a `LOAD` leaves; the invariant along a `STEP`. -/

namespace Sys2Proof.Machine

/-! ## Call and return (R90, R92) -/

/-- `2nnn` with room on the stack. -/
theorem exec_callNnn {s : State} (nnn : Addr12) (room : s.sp.val < 16) : exec (.callNnn nnn) s = .next (jumpTo (addrOperand nnn)
    { s with stack := s.stack.set s.sp.val (pcPlus s 2), sp := ⟨s.sp.val + 1, by omega⟩ }) := by
  rcases push_cases s (pcPlus s 2) with ⟨hfull, -⟩ | ⟨_, hpush⟩
  · omega
  · rw [exec, execCallNnn, hpush]

/-- `00EE` with an entry on the stack. -/
theorem exec_ret {s : State} (entry : 0 < s.sp.val) : exec .ret s = .next (jumpTo (s.stack[s.sp.val - 1]'(by omega))
    { s with sp := ⟨s.sp.val - 1, by omega⟩ }) := by
  rcases pop_cases s with ⟨hempty, -⟩ | ⟨_, hpop⟩
  · omega
  · rw [exec, execRet, hpop]

/-- Settles O19: the return pops the entry the call pushed. -/
theorem callThenReturnComesBack : Obligations.CallThenReturnComesBack := by
  intro s nnn j hj
  refine ⟨_, _, exec_callNnn nnn (hj ▸ j.isLt), exec_ret (Nat.succ_pos _), ?_, ?_⟩
  · exact Vector.getElem_set_self _
  · apply onlyChanges_of
    case hstk =>
      intro k hk
      exact Vector.getElem_set_ne (hj ▸ j.isLt) k.isLt fun hsp => hk (by simp [Fin.ext (hj.trans hsp)])
    all_goals simp [vreg_def]

/-! ## Ticks (R168) -/

/-- One tick, as a number: 0 stays 0. -/
theorem countDown_toNat (b : Byte) : (countDown b).toNat = b.toNat - 1 := by
  unfold countDown
  split <;> bv_omega

/-- Settles O41, by induction on the number of ticks. -/
theorem ticksCountBothTimersDown : Obligations.TicksCountBothTimersDown := by
  intro n s
  induction n with
  | zero => exact ⟨rfl, rfl, OnlyChanges.refl _ s⟩
  | succ n ih =>
    obtain ⟨hdt, hst, hframe⟩ := ih
    rw [Function.iterate_succ_apply', tick_dt, tick_st, countDown_toNat, countDown_toNat, hdt, hst]
    exact ⟨Nat.sub_sub _ _ _, Nat.sub_sub _ _ _, hframe.trans (tick_frame _)⟩

/-! ## `LOAD` (R37, R211) -/

section
variable (mem : Memory) (q : Quirks) (params : Params) (draws : Nat)

@[simp] theorem vreg_afterLoad (r : Reg) : (State.afterLoad mem q params draws).vreg r = 0 :=
  Vector.getElem_replicate r.isLt

@[simp] theorem stack_afterLoad (j : Fin 16) : (State.afterLoad mem q params draws).stack[j.val] = 0 :=
  Vector.getElem_replicate j.isLt

@[simp] theorem cell_afterLoad (p : Fin 32 × Fin 64) : Display.cell (State.afterLoad mem q params draws).disp p = false :=
  cell_clear p

@[simp] theorem key_afterLoad (k : Fin 16) : (State.afterLoad mem q params draws).key[k.val] = false :=
  Vector.getElem_replicate k.isLt

end

/-- A `LOAD` that is not too large, on a launched machine. -/
theorem event_load (s : State) {bytes : List Byte} (q : Quirks) (hlen : bytes.length ≤ Config.progMax) :
    State.event (.load bytes q) s =
      .next (State.afterLoad (s.mem.setBytes Config.progBase bytes) q s.params s.draws, .done) := by
  rcases loadInto_cases s.mem s.params s.draws bytes q with ⟨hlong, -⟩ | ⟨-, hload⟩
  · exact absurd hlen (Nat.not_le_of_lt hlong)
  · simp only [State.event, load, hload]

/-- Settles O45, by the state a `LOAD` leaves: the program is read back, and outside it memory is as before. -/
theorem loadResetsTheMachine : Obligations.LoadResetsTheMachine := by
  intro s bytes q hlen
  exact ⟨_, event_load s q hlen, vreg_afterLoad _ _ _ _, rfl, rfl, stack_afterLoad _ _ _ _, rfl, rfl, rfl,
    cell_afterLoad _ _ _ _, rfl, key_afterLoad _ _ _ _, rfl, rfl, fun j hj => byte_setBytes_inside _ _ j bytes hj,
    fun a ha => byte_setBytes_outside _ _ a bytes ha⟩

/-- After reset memory lists nothing. -/
theorem byte_reset (a : Nat) : State.reset.mem.byte a = unlisted a := rfl

/-- Settles O46: constructed memory with the defaults lists nothing, so it reads as `FONT` and then as zeros. -/
theorem resetIsTheLaunchState : Obligations.ResetIsTheLaunchState := by
  refine ⟨?launch, vreg_afterLoad _ _ _ _, rfl, rfl, rfl, rfl, rfl, cell_afterLoad _ _ _ _, rfl, key_afterLoad _ _ _ _, rfl,
    fun a h => ?font, fun a h => ?zero⟩
  case launch =>
    rw [System.powerOn, constructedMemory_default]
    exact System.event_load_constructed [] Config.defaultParams (bytes := []) _ (Nat.zero_le _)
  case font => rw [byte_reset, unlisted, List.getElem?_eq_getElem h, Option.getD_some]
  case zero =>
    rw [byte_reset, unlisted, List.getElem?_eq_none (show Config.defaultFont.length ≤ a from h)]
    rfl

/-- Settles O49: before the launch `LOAD` alone has a meaning. -/
theorem onlyLoadLaunchesTheMachine : Obligations.OnlyLoadLaunchesTheMachine := by
  intro mem params e
  constructor
  · intro hload
    cases e with
    | load bytes q => exact absurd rfl (hload bytes q)
    | step | tick | setKey k down | getFrame | isDirty | clearDirty | isSoundActive => rfl
  · rintro bytes q rfl hlen
    exact ⟨_, System.event_load_constructed mem params q hlen, rfl, rfl, rfl⟩

/-! ## The invariant -/

/-- Settles O55: the launch state is what a `LOAD` of no bytes leaves. -/
theorem resetMeetsTheInvariant : Obligations.ResetMeetsTheInvariant :=
  inv_afterLoad (mem := []) (bytes := []) _ _ _ wf_reset (Nat.zero_le _)

/-- Settles O56: a `STEP` answers one state, and `step_keeps_inv` gives its invariant. -/
theorem stepKeepsTheInvariant : Obligations.StepKeepsTheInvariant := by
  intro s t hs hstep
  obtain ⟨u, hu, hinv⟩ := step_keeps_inv hs
  obtain rfl := Host.Outcome.next.inj (hstep.symm.trans hu)
  exact hinv

end Sys2Proof.Machine
end

section
/-! SUPPORT. Memory as data: accesses inside memory pass the range check, a store keeps the canonical form, and in canonical form the
entries are fixed by what reads as other than unlisted (R50, R53, R56). -/

namespace Sys2Proof.Machine

/-! ## Accesses inside memory (R53) -/

theorem memWrite_of_inside (m : Memory) {a : Nat} {bs : List Byte} (hin : a + bs.length ≤ Config.memSize) :
    memWrite m a bs = some (m.setBytes a bs) := by
  cases hw : memWrite m a bs with
  | none => have := (memWrite_eq_none _ _ _).1 hw; simp only [Config.memSize] at hin; omega
  | some m' => rw [(memWrite_eq_some hw).2]

theorem exists_memRead_of_inside (m : Memory) {a n : Nat} (hin : a + n ≤ Config.memSize) : ∃ bs, memRead m a n = some bs := by
  cases hr : memRead m a n with
  | none => have := (memRead_eq_none _ _ _).1 hr; simp only [Config.memSize] at hin; omega
  | some bs => exact ⟨bs, rfl⟩

/-! ## The canonical form -/

/-- A store keeps the canonical form; a store of no byte does so wherever it is. -/
theorem wf_memWrite {m m' : Memory} {a : Nat} {bs : List Byte} (hm : m.wf = true) (hw : memWrite m a bs = some m') :
    m'.wf = true := by
  obtain ⟨hin, rfl⟩ := memWrite_eq_some hw
  cases bs with
  | nil => exact hm
  | cons b bs =>
    have := hin (Nat.le_add_left 1 bs.length)
    exact wf_setBytes hm (by simp only [Config.memSize]; omega)

/-- An address that no entry names reads as unlisted. -/
theorem byte_of_not_listed {m : Memory} {k : Nat} (h : ∀ c ∈ m, c.1 ≠ k) : m.byte k = unlisted k := by
  induction m with
  | nil => rfl
  | cons d m ih =>
    rw [Memory.byte, if_neg (h d List.mem_cons_self).symm]
    exact ih fun c hc => h c (List.mem_cons_of_mem d hc)

/-- Where addresses rise, a listed address reads as its entry. -/
theorem byte_of_mem {m : Memory} (hm : m.Pairwise (fun c d => c.1 < d.1)) {c : Host.Cell} (hc : c ∈ m) : m.byte c.1 = c.2 := by
  induction m with
  | nil => cases hc
  | cons d m ih =>
    obtain ⟨hd, hm⟩ := List.pairwise_cons.1 hm
    rcases List.mem_cons.1 hc with rfl | hc
    · rw [Memory.byte, if_pos rfl]
    · rw [Memory.byte, if_neg (Nat.ne_of_gt (hd c hc)), ih hm hc]

/-- In canonical form the entries are exactly the bytes that read as other than unlisted. -/
theorem mem_iff_byte_of_wf {m : Memory} (hm : m.wf = true) (c : Host.Cell) :
    c ∈ m ↔ m.byte c.1 = c.2 ∧ c.2 ≠ unlisted c.1 := by
  obtain ⟨hrise, hentry⟩ := (wf_iff m).1 hm
  constructor
  · exact fun hc => ⟨byte_of_mem hrise hc, (hentry c hc).2⟩
  · rintro ⟨hbyte, hne⟩
    by_contra hc
    refine hne (hbyte.symm.trans (byte_of_not_listed fun d hd hdc => hc ?_))
    have hdbyte : m.byte c.1 = d.2 := hdc ▸ byte_of_mem hrise hd
    rwa [Prod.ext hdc.symm (hbyte.symm.trans hdbyte)]

/-! ## The statements about memory alone -/

/-- Settles O52, by the reads inside and outside the written bytes. -/
theorem readAfterWrite : Obligations.ReadAfterWrite := by
  refine fun m a b bs => ⟨fun h => ?_, byte_setBytes_outside m a b bs⟩
  have hread := byte_setBytes_inside m a (b - a) bs h.2
  rwa [Nat.add_sub_of_le h.1] at hread

/-- Settles O53. -/
theorem storesKeepTheCanonicalForm : Obligations.StoresKeepTheCanonicalForm := fun _ _ _ _ hm hw => wf_memWrite hm hw

/-- Settles O54: the two lists have the same entries, and both are in the order of the addresses. -/
theorem equalMemoriesAreEqualData : Obligations.EqualMemoriesAreEqualData := by
  intro m m' hm hm' hbyte
  refine List.Pairwise.eq_of_mem_iff (r := InvImage (· < ·) Prod.fst) ((wf_iff m).1 hm).1 ((wf_iff m').1 hm').1 fun c => ?_
  rw [mem_iff_byte_of_wf hm, mem_iff_byte_of_wf hm', hbyte]

end Sys2Proof.Machine
end

section
/-! SUPPORT. `Fx33`, `Fx55`, `Fx65` (R133 to R135): the state each leaves when its bytes are inside memory, and what is then read. -/

namespace Sys2Proof.Machine

/-! ## What is stored and loaded -/

/-- The digits read back as numbers: none is cut by the width of a byte (R133). -/
theorem byte_setBytes_bcdDigits (m : Memory) (a : Nat) (b : Byte) :
    ((m.setBytes a (bcdDigits b)).byte a).toNat = b.toNat / 100 ∧
    ((m.setBytes a (bcdDigits b)).byte (a + 1)).toNat = b.toNat / 10 % 10 ∧
    ((m.setBytes a (bcdDigits b)).byte (a + 2)).toNat = b.toNat % 10 := by
  have := b.isLt
  have hdigit (j : Fin 3) := byte_setBytes_inside m a j.val (bcdDigits b) j.isLt
  refine ⟨(congrArg BitVec.toNat (hdigit 0)).trans ?_, (congrArg BitVec.toNat (hdigit 1)).trans ?_,
    (congrArg BitVec.toNat (hdigit 2)).trans ?_⟩
  all_goals exact Nat.mod_eq_of_lt (by omega)

/-- `V[j]` stands at offset `j` of the stored bytes (R134). -/
theorem byte_setBytes_vregsUpTo (m : Memory) (a : Nat) (s : State) {x j : Reg} (hj : j.val ≤ x.val) :
    (m.setBytes a (vregsUpTo s x)).byte (a + j.val) = s.vreg j := by
  have hlen : j.val < (vregsUpTo s x).length := by rw [vregsUpTo_length]; omega
  rw [byte_setBytes_inside _ _ _ _ hlen, vregsUpTo_getElem]

/-- The first `n` registers are the bytes read, the others are as before (R135). -/
theorem setVregsFrom_memRead_getElem {m : Memory} {a n : Nat} {bs : List Byte} (hr : memRead m a n = some bs) (v : Vector Byte 16)
    (r : Reg) : (setVregsFrom v 0 bs)[r.val] = if r.val < n then m.byte (a + r.val) else v[r.val] := by
  obtain ⟨-, rfl, hbytes⟩ := memRead_eq_some hr
  rw [setVregsFrom_getElem]
  by_cases hlt : r.val < bs.length
  · rw [dif_pos ⟨Nat.zero_le _, hlt⟩, if_pos hlt]; exact hbytes r.val hlt
  · rw [dif_neg (fun h => hlt h.2), if_neg hlt]

/-- `I` after a bulk store or load, as a number (R134, R135). -/
theorem indexAfterBulk_toNat (s : State) (x : Reg) : (indexAfterBulk s x).toNat =
    if s.quirks.loadStoreIncrementsI = true then (s.i.toNat + x.val + 1) % 65536 else s.i.toNat := by
  unfold indexAfterBulk
  split
  · exact BitVec.toNat_ofNat _ 16
  · rfl

/-! ## The instructions -/

/-- An instruction whose fault condition holds enters that fault (R189). -/
theorem exec_of_faultOf {i : Instr} {s : State} {k : FaultKind} (hk : faultOf i s = some k) :
    exec i s = .next (raise s k (some (encode i))) := by
  rcases exec_cases i s with ⟨k', hk', hexec⟩ | ⟨hnone, -⟩
  · rwa [Option.some.inj (hk.symm.trans hk')]
  · simp [hk] at hnone

/-- Without a fault an instruction has every frame that admits its row of R36. -/
theorem exec_frame_mono {i : Instr} {s t : State} {w : Component → Prop} (hexec : exec i s = .next t) (hnone : faultOf i s = none)
    (hw : ∀ c, mayWrite i s c → w c) : OnlyChanges w s t :=
  ((exec_frame hexec).1 hnone).mono hw

/-- `Fx33` inside memory. -/
theorem exec_ldBVx {s : State} (x : Reg) (hin : s.i.toNat + 2 ≤ 0xFFF) : exec (.ldBVx x) s =
    .next (advance { s with mem := s.mem.setBytes s.i.toNat (bcdDigits (s.vreg x)) }) := by
  rw [exec, execLdBVx, dataAddress_eq, memWrite_of_inside _ (Nat.succ_le_succ hin)]

/-- `Fx55` inside memory. -/
theorem exec_ldMemVx {s : State} {x : Reg} (hin : s.i.toNat + x.val ≤ 0xFFF) : exec (.ldMemVx x) s =
    .next (advance { s with mem := s.mem.setBytes s.i.toNat (vregsUpTo s x), i := indexAfterBulk s x }) := by
  rw [exec, execLdMemVx, dataAddress_eq, memWrite_of_inside _ (by rw [vregsUpTo_length]; exact Nat.succ_le_succ hin)]

/-- `Fx65` inside memory. -/
theorem exec_ldVxMem {s : State} {x : Reg} (hin : s.i.toNat + x.val ≤ 0xFFF) :
    ∃ bs, memRead s.mem s.i.toNat (x.val + 1) = some bs ∧
      exec (.ldVxMem x) s = .next (advance { s with v := setVregsFrom s.v 0 bs, i := indexAfterBulk s x }) := by
  obtain ⟨bs, hr⟩ := exists_memRead_of_inside s.mem (n := x.val + 1) (Nat.succ_le_succ hin)
  exact ⟨bs, hr, by rw [exec, execLdVxMem, dataAddress_eq, hr]⟩

/-! ## The statements about the instructions -/

/-- Settles O29: the three digits are read back, and their weighted sum is the byte. -/
theorem bcdStoresThreeDigits : Obligations.BcdStoresThreeDigits := by
  refine fun s x => ⟨fun hin => ⟨_, exec_ldBVx x hin, ?_⟩, fun hout => exec_of_faultOf (if_pos hout)⟩
  obtain ⟨hhundreds, htens, hones⟩ := byte_setBytes_bcdDigits s.mem s.i.toNat (s.vreg x)
  have := (s.vreg x).isLt
  simp only [advance_mem, dataAddress_eq, hhundreds, htens, hones]
  refine ⟨by omega, by omega, by omega, by omega, rfl, trivial, fun a => byte_setBytes_outside _ _ a (bcdDigits (s.vreg x)), ?_⟩
  exact exec_frame_mono (exec_ldBVx x hin) (if_neg (Nat.not_lt.2 hin)) fun c => by cases c <;> simp [mayWrite, writesVreg]

/-- Settles O30: the stored registers are read back. -/
theorem bulkStoreWritesV0ToVx : Obligations.BulkStoreWritesV0ToVx := by
  refine fun s x => ⟨fun hin => ⟨_, exec_ldMemVx hin, fun j hj => byte_setBytes_vregsUpTo _ _ s hj, rfl, fun a ha => ?_,
    indexAfterBulk_toNat s x, rfl, ?_⟩, fun hout => exec_of_faultOf (if_pos hout)⟩
  · exact byte_setBytes_outside _ _ _ _ (by rwa [vregsUpTo_length])
  · exact exec_frame_mono (exec_ldMemVx hin) (if_neg (Nat.not_lt.2 hin)) fun c => by cases c <;> simp [mayWrite, writesVreg]

/-- Settles O31: the first `x + 1` registers are the bytes read. -/
theorem bulkLoadReadsV0ToVx : Obligations.BulkLoadReadsV0ToVx := by
  refine fun s x => ⟨fun hin => ?_, fun hout => exec_of_faultOf (if_pos hout)⟩
  obtain ⟨bs, hr, hexec⟩ := exec_ldVxMem hin
  have hreg := setVregsFrom_memRead_getElem hr s.v
  refine ⟨_, hexec, fun j hj => (hreg j).trans (if_pos (by omega)), fun j hj => (hreg j).trans (if_neg (by omega)), fun _ => rfl,
    indexAfterBulk_toNat s x, rfl, ?_⟩
  exact exec_frame_mono hexec (if_neg (Nat.not_lt.2 hin)) fun c => by cases c <;> simp [mayWrite, writesVreg]

/-- Settles O32: the load reads the bytes the store wrote, which are the registers before it. -/
theorem bulkLoadUndoesBulkStore : Obligations.BulkLoadUndoesBulkStore := by
  intro s t x w hin hstore
  obtain rfl := Host.Outcome.next.inj ((exec_ldMemVx hin).symm.trans hstore)
  obtain ⟨bs, hr, hload⟩ := exec_ldVxMem (x := x)
    (s := { advance { s with mem := s.mem.setBytes s.i.toNat (vregsUpTo s x) } with v := w, i := s.i }) hin
  refine ⟨_, hload, fun j hj => ?_⟩
  calc (setVregsFrom w 0 bs)[j.val]
      = (s.mem.setBytes s.i.toNat (vregsUpTo s x)).byte (s.i.toNat + j.val) :=
        (setVregsFrom_memRead_getElem hr w j).trans (if_pos (Nat.lt_succ_of_le hj))
    _ = s.vreg j := byte_setBytes_vregsUpTo _ _ s hj

/-- Settles O33: the fetch reads the two bytes the store wrote for `V0` and `V1`. -/
theorem nextFetchSeesTheStore : Obligations.NextFetchSeesTheStore := by
  intro s t x hin hx hstore hpc heven hbase
  obtain rfl := Host.Outcome.next.inj ((exec_ldMemVx hin).symm.trans hstore)
  cases hw : fetchWord (advance { s with mem := s.mem.setBytes s.i.toNat (vregsUpTo s x), i := indexAfterBulk s x }) with
  | none => have := (fetchWord_eq_none _).1 hw; omega
  | some w =>
    obtain ⟨-, -, -, rfl⟩ := fetchWord_eq_some hw
    have hhigh : (s.mem.setBytes s.i.toNat (vregsUpTo s x)).byte s.i.toNat = s.vreg 0 :=
      byte_setBytes_vregsUpTo _ _ s (j := 0) (Nat.zero_le _)
    have hlow : (s.mem.setBytes s.i.toNat (vregsUpTo s x)).byte (s.i.toNat + 1) = s.vreg 1 :=
      byte_setBytes_vregsUpTo _ _ s (j := 1) hx
    exact ⟨_, rfl, by rw [joinBytes_toNat, hpc, advance_mem, hhigh, hlow]⟩

end Sys2Proof.Machine
end

section
/-! SUPPORT. The decoder and the encoder are inverse to each other (R70 to R72, R74). So a row of the opcode map decodes to an
instruction as soon as a word that matches it is that instruction's encoding, and the words that decode are those of some row. -/

namespace Sys2Proof

/-! ## Decoding an encoded word -/

/-- The decoder reads back the family, the selector and the operands that a format of R72 writes. -/
theorem decode_encode (i : Instr) : decode (encode i) = .ok i := by
  cases i with
  | cls | ret => decide
  | jpNnn | callNnn | ldINnn | jpV0Nnn => simp [encode, decode]
  | seVxKk | sneVxKk | ldVxKk | addVxKk | rndVxKk => simp [encode, decode]
  | drwVxVyN => simp [encode, decode]
  | seVxVy | sneVxVy => simp [encode, decode, decodeSkipVxVy]
  | ldVxVy | orVxVy | andVxVy | xorVxVy | addVxVy | subVxVy | shrVxVy | subnVxVy | shlVxVy =>
    simp [encode, decode, decodeFamily8]
  | skpVx | sknpVx => simp [encode, decode, decodeFamilyE]
  | ldVxDt | ldVxK | ldDtVx | ldStVx | addIVx | ldFVx | ldBVx | ldMemVx | ldVxMem => simp [encode, decode, decodeFamilyF]

/-- Decoding to `i` is being the encoding of `i`. -/
theorem decode_eq_ok_iff (w : Word) (i : Instr) : decode w = .ok i ↔ encode i = w :=
  ⟨encode_of_decode, fun h => h ▸ decode_encode i⟩

/-- Settles O1: the two bytes join to the encoded word, which decodes to its instruction. -/
theorem decodeOfEncodeGivesTheInstruction : Obligations.DecodeOfEncodeGivesTheInstruction := by
  intro i rest
  simp [encodeBytes, decodeBytes, decode_encode]

/-- Settles O2: `encode_of_decode`, family by family. -/
theorem encodeOfDecodeGivesTheWord : Obligations.EncodeOfDecodeGivesTheWord := fun _ _ h => encode_of_decode h

/-- Settles O5: the decoder is evaluated on the seven words. -/
theorem writtenOutWordsDecode : Obligations.WrittenOutWordsDecode := by
  unfold Obligations.WrittenOutWordsDecode
  decide

/-! ## The fields of a masked word, and the fields as numbers (R71) -/

theorem opField_and (w m : Word) : opField (w &&& m) = opField w &&& opField m := BitVec.extractLsb'_and
theorem nField_and (w m : Word) : nField (w &&& m) = nField w &&& nField m := BitVec.extractLsb'_and
theorem kkField_and (w m : Word) : kkField (w &&& m) = kkField w &&& kkField m := BitVec.extractLsb'_and

/-- A mask that covers a field keeps it. -/
theorem opField_of_masked {w m p : Word} (h : w &&& m = p) (hm : opField m = 0xF) : opField w = opField p := by
  rw [← h, opField_and, hm]; exact BitVec.and_allOnes.symm
theorem nField_of_masked {w m p : Word} (h : w &&& m = p) (hm : nField m = 0xF) : nField w = nField p := by
  rw [← h, nField_and, hm]; exact BitVec.and_allOnes.symm
theorem kkField_of_masked {w m p : Word} (h : w &&& m = p) (hm : kkField m = 0xFF) : kkField w = kkField p := by
  rw [← h, kkField_and, hm]; exact BitVec.and_allOnes.symm

theorem xField_eq_ofNat (w : Word) : xField w = Fin.ofNat 16 (w.toNat / 256) := by
  apply Fin.ext; simp [xField, Nat.shiftRight_eq_div_pow]
theorem yField_eq_ofNat (w : Word) : yField w = Fin.ofNat 16 (w.toNat / 16) := by
  apply Fin.ext; simp [yField, Nat.shiftRight_eq_div_pow]
theorem nField_toFin_eq_ofNat (w : Word) : (nField w).toFin = Fin.ofNat 16 w.toNat := by
  apply Fin.ext; simp [nField]
theorem kkField_eq_ofNat (w : Word) : kkField w = BitVec.ofNat 8 w.toNat := by
  apply BitVec.eq_of_toNat_eq; simp [kkField]
theorem nnnField_eq_ofNat (w : Word) : nnnField w = BitVec.ofNat 12 w.toNat := by
  apply BitVec.eq_of_toNat_eq; simp [nnnField]

/-! ## A word that matches a row is an encoding with the word's own fields, format by format (R72) -/

theorem encNnn_of_masked {w : Word} {op : BitVec 4} (h : w &&& 0xF000 = encNnn op 0) : encNnn op (nnnField w) = w :=
  encNnn_of_opField ((opField_of_masked h rfl).trans (opField_encNnn op 0))

theorem encXkk_of_masked {w : Word} {op : BitVec 4} (h : w &&& 0xF000 = encXkk op 0 0) : encXkk op (xField w) (kkField w) = w :=
  encXkk_of_opField ((opField_of_masked h rfl).trans (opField_encXkk op 0 0))

theorem encX_of_masked {w : Word} {op : BitVec 4} {kk : Byte} (h : w &&& 0xF0FF = encXkk op 0 kk) : encXkk op (xField w) kk = w :=
  encXkk_of_kkField ((opField_of_masked h rfl).trans (opField_encXkk op 0 kk))
    ((kkField_of_masked h rfl).trans (kkField_encXkk op 0 kk))

theorem encXyn_of_masked {w : Word} {op : BitVec 4} (h : w &&& 0xF000 = encXyn op 0 0 0) :
    encXyn op (xField w) (yField w) (nField w) = w :=
  encXyn_of_nField ((opField_of_masked h rfl).trans (opField_encXyn op 0 0 0)) rfl

theorem encXy_of_masked {w : Word} {op n : BitVec 4} (h : w &&& 0xF00F = encXyn op 0 0 n) : encXyn op (xField w) (yField w) n = w :=
  encXyn_of_nField ((opField_of_masked h rfl).trans (opField_encXyn op 0 0 n))
    ((nField_of_masked h rfl).trans (nField_encXyn op 0 0 n))

/-! ## The opcode map (R74) -/

/-- Two rows that one word selects agree on the bits both masks keep. -/
theorem pattern_and_mask_comm {a b : OpcodeRow} {w : Word} (ha : a.selects w = true) (hb : b.selects w = true) :
    a.pattern &&& b.mask = b.pattern &&& a.mask := by
  rw [← eq_of_beq ha, ← eq_of_beq hb, BitVec.and_assoc, BitVec.and_assoc, BitVec.and_comm a.mask]

/-- "The masks are disjoint: no word matches two rows" (R74). -/
theorem opcodeMap_disjoint : opcodeMap.Pairwise fun a b => ∀ w : Word, ¬(a.selects w = true ∧ b.selects w = true) := by
  have hdiffer : opcodeMap.Pairwise fun a b => a.pattern &&& b.mask ≠ b.pattern &&& a.mask := by decide
  exact hdiffer.imp fun hne w ⟨ha, hb⟩ => hne (pattern_and_mask_comm ha hb)

/-- Settles O3: a word that matches a row is the encoding of the row's instruction, so it decodes to it. -/
theorem decodeFollowsTheOpcodeMap : Obligations.DecodeFollowsTheOpcodeMap := by
  refine ⟨fun w => ?_, rfl, opcodeMap_disjoint⟩
  simp only [← xField_eq_ofNat, ← yField_eq_ofNat, ← nField_toFin_eq_ofNat, ← kkField_eq_ofNat, ← nnnField_eq_ofNat,
    decode_eq_ok_iff]
  have hall : w &&& 0xFFFF = w := BitVec.and_allOnes
  and_intros <;> intro h
  exacts [h.symm.trans hall, h.symm.trans hall, encNnn_of_masked h, encNnn_of_masked h, encXkk_of_masked h, encXkk_of_masked h,
    encXy_of_masked h, encXkk_of_masked h, encXkk_of_masked h,
    encXy_of_masked h, encXy_of_masked h, encXy_of_masked h, encXy_of_masked h, encXy_of_masked h, encXy_of_masked h,
    encXy_of_masked h, encXy_of_masked h, encXy_of_masked h,
    encXy_of_masked h, encNnn_of_masked h, encNnn_of_masked h, encXkk_of_masked h, encXyn_of_masked h, encX_of_masked h,
    encX_of_masked h,
    encX_of_masked h, encX_of_masked h, encX_of_masked h, encX_of_masked h, encX_of_masked h, encX_of_masked h,
    encX_of_masked h, encX_of_masked h, encX_of_masked h]

end Sys2Proof
end

section
/-! SUPPORT. The words that decode and the words that do not (R74, R75), family by family. -/

namespace Sys2Proof

/-! ## The checks of R75 read the fields of R71 -/

theorem ushiftRight_eq_opField (w : Word) : w >>> 12 = (opField w).setWidth 16 := by
  apply BitVec.eq_of_toNat_eq
  have := w.isLt
  simp [opField, Nat.shiftRight_eq_div_pow]; omega
theorem and_eq_nField (w : Word) : w &&& 0x000F = (nField w).setWidth 16 := by
  apply BitVec.eq_of_toNat_eq
  simp [nField, Nat.and_two_pow_sub_one_eq_mod w.toNat 4]; omega
theorem and_eq_kkField (w : Word) : w &&& 0x00FF = (kkField w).setWidth 16 := by
  apply BitVec.eq_of_toNat_eq
  simp [kkField, Nat.and_two_pow_sub_one_eq_mod w.toNat 8]; omega

/-! ## Everything the decoder can answer

In the rejecting case of a family the selector is none of those listed; that it then passes the check of R75 is decided over the
selector's 16 or 256 values. -/

/-- `o` is an answer to `w`: where `undefined`, the rejection of `w` by name, else an instruction. -/
def Answers (w : Word) (undefined : Bool) (o : Except DecodeReject Instr) : Prop :=
  (undefined = true ∧ o = .error (.undefinedWord w)) ∨ (undefined = false ∧ ∃ i, o = .ok i)

theorem decodeFamily0_answers (w : Word) : Answers w (w != 0x00E0 && w != 0x00EE) (decodeFamily0 w) := by
  unfold decodeFamily0
  split
  case isTrue hcls => exact .inr ⟨by simp [hcls], _, rfl⟩
  case isFalse hcls =>
    split
    case isTrue hret => exact .inr ⟨by simp [hret], _, rfl⟩
    case isFalse hret => exact .inl ⟨by simpa using ⟨hcls, hret⟩, rfl⟩

theorem decodeSkipVxVy_answers (w : Word) (mk : Reg → Reg → Instr) : Answers w (w &&& 0x000F != 0) (decodeSkipVxVy w mk) := by
  rw [and_eq_nField]
  unfold decodeSkipVxVy
  split
  case isTrue hn => exact .inr ⟨by rw [hn]; rfl, _, rfl⟩
  case isFalse =>
    refine .inl ⟨?_, rfl⟩
    generalize nField w = n at *
    revert n
    decide

theorem decodeFamily8_answers (w : Word) :
    Answers w ([0x8, 0x9, 0xA, 0xB, 0xC, 0xD, 0xF].contains (w &&& 0x000F)) (decodeFamily8 w) := by
  rw [and_eq_nField]
  unfold decodeFamily8
  split
  case h_10 =>
    refine .inl ⟨?_, rfl⟩
    generalize nField w = n at *
    revert n
    decide
  all_goals exact .inr ⟨by simp [*], _, rfl⟩

theorem decodeFamilyE_answers (w : Word) : Answers w (!([0x9E, 0xA1].contains (w &&& 0x00FF))) (decodeFamilyE w) := by
  rw [and_eq_kkField]
  unfold decodeFamilyE
  split
  case h_3 =>
    refine .inl ⟨?_, rfl⟩
    generalize kkField w = kk at *
    revert kk
    decide
  all_goals exact .inr ⟨by simp [*], _, rfl⟩

theorem decodeFamilyF_answers (w : Word) :
    Answers w (!([0x07, 0x0A, 0x15, 0x18, 0x1E, 0x29, 0x33, 0x55, 0x65].contains (w &&& 0x00FF))) (decodeFamilyF w) := by
  rw [and_eq_kkField]
  unfold decodeFamilyF
  split
  case h_10 =>
    refine .inl ⟨?_, rfl⟩
    generalize kkField w = kk at *
    revert kk
    decide
  all_goals exact .inr ⟨by simp [*], _, rfl⟩

/-- The decoder rejects the words of the six families of R75 and no others: the family field leaves one check of the six. -/
theorem decode_answers (w : Word) : Answers w w.undefined (decode w) := by
  simp only [Word.undefined, Word.undefined0, Word.undefined5, Word.undefined8, Word.undefined9, Word.undefinedE, Word.undefinedF,
    ushiftRight_eq_opField]
  unfold decode
  split
  case h_1 hop => simpa [hop] using decodeFamily0_answers w
  case h_6 hop | h_10 hop => simpa [hop] using decodeSkipVxVy_answers w _
  case h_9 hop => simpa [hop] using decodeFamily8_answers w
  case h_15 hop => simpa [hop] using decodeFamilyE_answers w
  case h_16 =>
    have hop : opField w = 0xF := by
      generalize opField w = op at *
      revert op
      decide
    simpa [hop] using decodeFamilyF_answers w
  all_goals exact .inr ⟨by simp [*], _, rfl⟩

/-! ## The words of the opcode map -/

/-- The word of an instruction selects the instruction's row. -/
theorem wellFormed_encode (i : Instr) : (encode i).wellFormed = true := by
  have hrow : Laws.WordForm.Statement i := by
    open Laws.WordForm in
    cases i
    exacts [cls, ret, jpNnn _, callNnn _, seVxKk _ _, sneVxKk _ _, seVxVy _ _, ldVxKk _ _, addVxKk _ _, ldVxVy _ _, orVxVy _ _,
      andVxVy _ _, xorVxVy _ _, addVxVy _ _, subVxVy _ _, shrVxVy _ _, subnVxVy _ _, shlVxVy _ _, sneVxVy _ _, ldINnn _,
      jpV0Nnn _, rndVxKk _ _, drwVxVyN _ _ _, skpVx _, sknpVx _, ldVxDt _, ldVxK _, ldDtVx _, ldStVx _, addIVx _, ldFVx _,
      ldBVx _, ldMemVx _, ldVxMem _]
  obtain ⟨hselects, hmem⟩ := hrow
  exact List.any_eq_true.2 ⟨_, hmem, beq_iff_eq.2 hselects⟩

/-- A word matches a row exactly when it decodes: a word that decodes to nothing can match none of the 34 rows. -/
theorem wellFormed_iff_decodes (w : Word) : w.wellFormed = true ↔ ∃ i, decode w = .ok i := by
  refine ⟨fun hw => by_contra fun hno => ?_, fun ⟨i, hi⟩ => encode_of_decode hi ▸ wellFormed_encode i⟩
  have hrows := decodeFollowsTheOpcodeMap.1 w
  simp only [not_exists.1 hno, imp_false] at hrows
  simp_all [Word.wellFormed, opcodeMap, OpcodeRow.selects]

/-- Settles O4: both equivalences are read off the decoder's two answers. -/
theorem decodeRefusesExactlyTheUndefinedWords : Obligations.DecodeRefusesExactlyTheUndefinedWords := by
  intro w
  rw [← Bool.not_eq_true, wellFormed_iff_decodes]
  rcases decode_answers w with ⟨hundefined, hdecode⟩ | ⟨hdefined, i, hdecode⟩
  · simp [hundefined, hdecode]
  · simp [hdefined, hdecode]

end Sys2Proof
end

section
/-! SUPPORT. A `STEP` in each run state it acts in (R77), and the fetch of one in `Running` (R70). -/

namespace Sys2Proof.Machine

theorem step_of_decode {s : State} {w : Word} {i : Instr} (hrun : s.run = .running) (hw : fetchWord s = some w)
    (hi : decode w = .ok i) : step s = exec i s := by
  simp [step, hrun, hw, hi]

theorem step_of_no_fetch {s : State} (hrun : s.run = .running) (hw : fetchWord s = none) :
    step s = .next (raise s .fetchFault none) := by
  simp [step, hrun, hw, raiseFetchFault]

theorem step_of_awaitingKey {s : State} {x : Reg} (hrun : s.run = .awaitingKey x) : step s = .next (pollKeypad x s) := by
  simp [step, hrun]

/-- What a fetch that succeeds reads, as a number (R54, R70). -/
theorem fetchWord_of_fetchable {s : State} (h : fetchable s.pc = true) :
    fetchWord s = some (BitVec.ofNat 16 ((s.mem.byte s.pc.toNat).toNat * 256 + (s.mem.byte (s.pc.toNat + 1)).toNat)) := by
  rw [fetchWord, if_pos h, ← joinBytes_toNat, BitVec.ofNat_toNat, BitVec.setWidth_eq]

/-- Settles O6: the fetch accepts this `PC` and reads the word that decodes to `i`. -/
theorem stepRunsTheDecodedInstruction : Obligations.StepRunsTheDecodedInstruction := by
  intro s i hrun heven hlow hhigh hdecode
  have hfetch := fetchWord_of_fetchable ((fetchable_iff s.pc).2 ⟨heven, hlow, hhigh⟩)
  exact step_of_decode hrun hfetch hdecode

/-- Settles O7: the fetch answers no word, whatever memory holds. -/
theorem badPcRaisesFetchFault : Obligations.BadPcRaisesFetchFault :=
  fun s hrun hpc => step_of_no_fetch hrun ((fetchWord_eq_none s).2 hpc)

end Sys2Proof.Machine
end

section
/-! SUPPORT. `PC` after an instruction, row by row of R78. -/

namespace Sys2Proof.Machine

/-- `PC` is that of the one state the instruction answers. -/
theorem pc_of_exec {i : Instr} {s t u : State} (ht : exec i s = .next t) (hu : exec i s = .next u) : t.pc = u.pc :=
  congrArg State.pc (Host.Outcome.next.inj (ht.symm.trans hu))

/-- "`PC0 + 4` if the condition holds, else `PC0 + 2`" (R78). -/
theorem pc_skipIf (c : Bool) (s : State) : (skipIf c s).pc = if c = true then s.pc + 4 else s.pc + 2 := by
  cases c <;> rfl

theorem keyOperand_of_eq {s : State} {x : Reg} {k : Fin 16} (hk : (s.vreg x).toNat = k.val) : keyOperand s x = some k := by
  simp [keyOperand, hk]

/-- `Ex9E` on key `k`. -/
theorem exec_skpVx {s : State} {x : Reg} {k : Fin 16} (hk : (s.vreg x).toNat = k.val) :
    exec (.skpVx x) s = .next (skipIf s.key[k.val] s) := by
  rw [exec, execSkpVx, keyOperand_of_eq hk]

/-- `ExA1` on key `k`. -/
theorem exec_sknpVx {s : State} {x : Reg} {k : Fin 16} (hk : (s.vreg x).toNat = k.val) :
    exec (.sknpVx x) s = .next (skipIf (!s.key[k.val]) s) := by
  rw [exec, execSknpVx, keyOperand_of_eq hk]

theorem sp_lt_of_callNnn {nnn : Addr12} {s : State} (hnone : faultOf (.callNnn nnn) s = none) : s.sp.val < 16 := by
  have : s.sp.val ≠ 16 := by simpa [faultOf] using hnone
  omega

theorem pc_of_drwVxVyN {x y : Reg} {n : Fin 16} {s t : State} (hexec : exec (.drwVxVyN x y n) s = .next t)
    (hnone : faultOf (.drwVxVyN x y n) s = none) : t.pc = s.pc + 2 := by
  rw [exec, execDrwVxVyN] at hexec
  split at hexec
  case isTrue => cases hexec; rfl
  case isFalse hon =>
    split at hexec
    case h_1 hread =>
      have hfault : faultOf (.drwVxVyN x y n) s = some .addressFault :=
        if_pos ⟨mt (originOffScreen_iff _ _).2 hon, (memRead_eq_none _ _ _).1 hread⟩
      simp [hfault] at hnone
    case h_2 => cases hexec; rfl

/-- With a key down a poll completes its `Fx0A` (R163). -/
theorem pc_pollKeypad {s : State} (x : Reg) {k : Fin 16} (hk : s.key[k.val] = true) : (pollKeypad x s).pc = s.pc + 2 := by
  rcases pollKeypad_cases x s with ⟨hnone, -⟩ | ⟨_, _, -, hpoll⟩
  · have hmem := (mem_keysDown s k.val).2 ⟨k.isLt, hk⟩
    simp [hnone] at hmem
  · rw [hpoll]

/-- Settles O15: a fault keeps `PC`; without one, each instruction's own equation gives its row of R78. -/
theorem pcAfterEachInstruction : Obligations.PcAfterEachInstruction := by
  refine ⟨fun i s t hexec => ⟨fun hfault => ?_, fun hnone => ?_⟩, fun nnn s t hexec hnone j hj => ?_,
    fun x s t hrun hstep ⟨k, hk⟩ => ?_⟩
  · obtain ⟨k, hk⟩ := Option.ne_none_iff_exists'.1 hfault
    rw [pc_of_exec hexec (exec_of_faultOf hk), raise_pc]
  · cases i with
    | ret =>
      intro j hj
      simpa [← hj] using pc_of_exec hexec (exec_ret (hj ▸ Nat.succ_pos _))
    | callNnn nnn =>
      rw [pc_of_exec hexec (exec_callNnn nnn (sp_lt_of_callNnn hnone))]
      exact addrOperand_toNat nnn
    | jpNnn nnn => cases hexec; exact addrOperand_toNat nnn
    | jpV0Nnn nnn => cases hexec; exact addrOperand_add_byteOperand_toNat nnn (s.vreg 0)
    | seVxKk | sneVxKk | seVxVy | sneVxVy => cases hexec; simp [pc_skipIf, -skipIf_pc]
    | skpVx x => exact fun k hk => (pc_of_exec hexec (exec_skpVx hk)).trans (pc_skipIf _ s)
    | sknpVx x =>
      intro k hk
      simpa [pc_skipIf, -skipIf_pc] using pc_of_exec hexec (exec_sknpVx hk)
    | ldBVx x => exact pc_of_exec hexec (exec_ldBVx x (by simpa [faultOf] using hnone))
    | ldMemVx x => exact pc_of_exec hexec (exec_ldMemVx (by simpa [faultOf] using hnone))
    | ldVxMem x =>
      obtain ⟨_, -, hload⟩ := exec_ldVxMem (s := s) (x := x) (by simpa [faultOf] using hnone)
      exact pc_of_exec hexec hload
    | drwVxVyN x y n => exact pc_of_drwVxVyN hexec hnone
    | _ => cases hexec; rfl
  · obtain rfl := Host.Outcome.next.inj (hexec.symm.trans (exec_callNnn nnn (sp_lt_of_callNnn hnone)))
    simp [hj]
  · obtain rfl := Host.Outcome.next.inj (hstep.symm.trans (step_of_awaitingKey hrun))
    exact pc_pollKeypad x hk

end Sys2Proof.Machine
end

section
/-! SUPPORT. The five arithmetic instructions that write a flag and a result (R81, R116 to R120, R123), with both as numbers. -/

namespace Sys2Proof.Machine

/-- Flag `f`, then result `r`: VF keeps the flag unless `x = F` (R81, R123; D7). The operands are in `f` and `r`, so they are read
before either write. -/
theorem exec_writeFlagThenResult {i : Instr} {s : State} {x : Reg} {f r : Byte} {fn rn : Nat}
    (hexec : exec i s = .next (advance (writeFlagThenResult s x f r))) (hr : r.toNat = rn) (hf : f.toNat = fn) :
    ∃ t, exec i s = .next t ∧ (t.vreg x).toNat = rn ∧ (x ≠ regF → (t.vreg regF).toNat = fn) ∧ t.pc = s.pc + 2 ∧
      OnlyListed [.vreg x, .vreg regF, .pc] s t := by
  refine ⟨_, hexec, by simp [hr], fun hx => by simp [hf, hx.symm], rfl, ?_⟩
  exact ((OnlyChanges.refl _ s).then_writeFlagThenResult (by simp) (by simp) f r).then_advance (by simp)

theorem sub_toNat (a b : Byte) : (a - b).toNat = (a.toNat + 256 - b.toNat) % 256 := by
  bv_omega

/-- The carry is bit 8 of the true sum (R116). -/
theorem carryFlag_toNat (a b : Byte) : (carryFlag a b).toNat = (a.toNat + b.toNat) / 256 := by
  have := a.isLt
  have := b.isLt
  simp only [carryFlag, flagByte_toNat, decide_eq_true_eq]
  split <;> omega

/-- No borrow is bit 8 of `a + 256 - b` (R117, R119, R122). -/
theorem noBorrowFlag_toNat (a b : Byte) : (noBorrowFlag a b).toNat = (a.toNat + 256 - b.toNat) / 256 := by
  have := a.isLt
  have := b.isLt
  simp only [noBorrowFlag, flagByte_toNat, Bool.not_eq_true', decide_eq_false_iff_not]
  split <;> omega

theorem lowBitFlag_toNat (a : Byte) : (lowBitFlag a).toNat = a.toNat % 2 := by
  simp only [lowBitFlag, flagByte_toNat, BitVec.getLsbD, Nat.testBit_zero, decide_eq_true_eq]
  split <;> omega

theorem highBitFlag_toNat (a : Byte) : (highBitFlag a).toNat = a.toNat / 128 := by
  have := a.isLt
  simp only [highBitFlag, flagByte_toNat, BitVec.getLsbD, Nat.testBit_eq_decide_div_mod_eq, decide_eq_true_eq]
  split <;> omega

theorem shiftSource_toNat (s : State) (x y : Reg) : (shiftSource s x y).toNat =
    if s.quirks.shiftUsesVx = true then (s.vreg x).toNat else (s.vreg y).toNat := apply_ite _ _ _ _

/-- Settles O25: the five instructions are one write of a flag and a result, for every `x` and `y`. -/
theorem vfAsOperandOfAFlagWriter : Obligations.VfAsOperandOfAFlagWriter := by
  intro s x y _ a b src
  have hsrc : (shiftSource s x y).toNat = src := shiftSource_toNat s x y
  have hhalf : (shiftSource s x y >>> 1).toNat = src / 2 := by simp [← hsrc, Nat.shiftRight_eq_div_pow]
  have hdouble : (shiftSource s x y <<< 1).toNat = src * 2 % 256 := by simp [← hsrc, Nat.shiftLeft_eq]
  exact ⟨exec_writeFlagThenResult rfl (BitVec.toNat_add _ _) (carryFlag_toNat _ _),
    exec_writeFlagThenResult rfl (sub_toNat _ _) (noBorrowFlag_toNat _ _),
    exec_writeFlagThenResult rfl (sub_toNat _ _) (noBorrowFlag_toNat _ _),
    exec_writeFlagThenResult rfl hhalf (hsrc ▸ lowBitFlag_toNat _),
    exec_writeFlagThenResult rfl hdouble (hsrc ▸ highBitFlag_toNat _)⟩

end Sys2Proof.Machine
end

section
/-! SUPPORT. Control transfer (R90 to R97): the return, the call, the jumps and the register skips, and a jump to itself. -/

namespace Sys2Proof.Machine

/-! ## The stack instructions (R90, R92) -/

/-- The word of `2nnn` as a fault record writes it: the pattern of R74 with `nnn` in its low bits. -/
theorem encode_callNnn (nnn : Addr12) : encode (.callNnn nnn) = 0x2000 ||| nnn.setWidth 16 := rfl

/-- Settles O17: the return pops the entry below `SP`; with `SP = 0` its fault condition holds. -/
theorem retPopsTheReturnAddress : Obligations.RetPopsTheReturnAddress := by
  refine fun s => ⟨fun j hj => ?_, fun hempty => exec_of_faultOf (if_pos hempty)⟩
  have hret := exec_ret (hj ▸ Nat.succ_pos _ : 0 < s.sp.val)
  refine ⟨_, hret, by simp [← hj], by simp [← hj], ?_⟩
  exact exec_frame_mono hret (if_neg (by omega)) fun c => by cases c <;> simp [mayWrite, writesVreg]

/-- Settles O18: the call writes the entry at `SP`; with `SP = 16` its fault condition holds. -/
theorem callPushesTheReturnAddress : Obligations.CallPushesTheReturnAddress := by
  refine fun s nnn => ⟨fun j hj => ?_, fun hfull => encode_callNnn nnn ▸ exec_of_faultOf (if_pos hfull)⟩
  have hcall := exec_callNnn nnn (hj ▸ j.isLt : s.sp.val < 16)
  refine ⟨_, hcall, by simp [hj], rfl, addrOperand_toNat nnn, ?_⟩
  exact exec_frame_mono hcall (if_neg (by omega)) fun c => by
    cases c <;> simp +contextual [mayWrite, writesVreg, Fin.ext_iff, hj]

/-! ## Jumps and skips (R91, R93 to R97) -/

/-- Settles O20: each jump is one write of `PC`, and its target needs no more than 16 bits. -/
theorem jumpsWriteTheTargetUnchecked : Obligations.JumpsWriteTheTargetUnchecked := fun s nnn =>
  ⟨⟨_, rfl, addrOperand_toNat nnn, onlyListed_jumpTo _ s⟩,
    ⟨_, rfl, addrOperand_add_byteOperand_toNat nnn (s.vreg 0), onlyListed_jumpTo _ s⟩⟩

/-- An instruction that skips on `c` moves `PC` by the `d` bytes that `c` selects, and changes nothing else (R78). -/
theorem exec_skipIf {i : Instr} {s : State} {c : Bool} {d : Word} (hexec : exec i s = .next (skipIf c s))
    (hd : (if c = true then 4 else 2) = d) : ∃ t, exec i s = .next t ∧ t.pc = s.pc + d ∧ OnlyListed [.pc] s t := by
  refine ⟨_, hexec, ?_, onlyListed_skipIf c s⟩
  rw [pc_skipIf, ← hd, apply_ite (s.pc + ·)]

/-- Settles O21: each skip tests its condition as a `Bool`. -/
theorem registerSkipsMovePcByTwoOrFour : Obligations.RegisterSkipsMovePcByTwoOrFour := fun s x y kk =>
  ⟨exec_skipIf (i := .seVxKk x kk) rfl (by simp), exec_skipIf (i := .sneVxKk x kk) rfl (by simp),
    exec_skipIf (i := .seVxVy x y) rfl (by simp), exec_skipIf (i := .sneVxVy x y) rfl (by simp)⟩

/-! ## The end of a run (R216) -/

/-- A `PC` that a fetch accepts fits in the 12 bits of `nnn` (R70, R71). -/
theorem addrOperand_pc_of_fetched {s : State} {w : Word} (h : fetchWord s = some w) : addrOperand (s.pc.setWidth 12) = s.pc := by
  obtain ⟨-, -, hhigh, -⟩ := fetchWord_eq_some h
  unfold addrOperand
  bv_omega

/-- Settles O50: the jump writes the `PC` that was there. -/
theorem endOfRunIsAFixedPoint : Obligations.EndOfRunIsAFixedPoint := by
  rintro s ⟨hrun, hfetch⟩
  calc step s = .next (jumpTo (addrOperand (s.pc.setWidth 12)) s) := step_of_decode hrun hfetch (decode_encode _)
    _ = .next (jumpTo s.pc s) := by rw [addrOperand_pc_of_fetched hfetch]
    _ = .next s := rfl

end Sys2Proof.Machine
end

section
/-! SUPPORT. Register load, arithmetic, logic, shifts and random (R110 to R121), the flag writers where `x` is not F. -/

namespace Sys2Proof.Machine

/-! ## One register written, no flag (R110 to R115) -/

/-- An instruction that writes `b` to `V[x]` and advances has no other effect. -/
theorem exec_setVreg {i : Instr} {s : State} {x : Reg} {b : Byte} (hexec : exec i s = .next (advance (s.setVreg x b))) :
    ∃ t, exec i s = .next t ∧ t.vreg x = b ∧ t.pc = s.pc + 2 ∧ OnlyListed [.vreg x, .pc] s t :=
  ⟨_, hexec, by simp, rfl, ((OnlyChanges.refl _ s).then_setVreg (by simp) b).then_advance (by simp)⟩

/-- Settles O22: each of the six is one register write; the sum of `7xkk` is that of bytes. -/
theorem flaglessRegisterInstructions : Obligations.FlaglessRegisterInstructions := by
  intro s x y kk
  refine ⟨exec_setVreg rfl, ?_, exec_setVreg rfl, exec_setVreg rfl, exec_setVreg rfl, exec_setVreg rfl⟩
  obtain ⟨t, hexec, hsum, hpc, hframe⟩ := exec_setVreg (i := .addVxKk x kk) (s := s) rfl
  exact ⟨t, hexec, by rw [hsum, BitVec.toNat_add], hpc, hframe⟩

/-! ## A flag and a result, `x` not F (R116 to R120) -/

/-- With `x` not F the result does not replace the flag in VF (R81). -/
theorem exec_writeFlagThenResult_of_ne {i : Instr} {s : State} {x : Reg} {f r : Byte} {fn rn : Nat} (hx : x ≠ regF)
    (hexec : exec i s = .next (advance (writeFlagThenResult s x f r))) (hr : r.toNat = rn) (hf : f.toNat = fn) :
    ∃ t, exec i s = .next t ∧ (t.vreg x).toNat = rn ∧ (t.vreg regF).toNat = fn ∧ t.pc = s.pc + 2 ∧
      OnlyListed [.vreg x, .vreg regF, .pc] s t := by
  obtain ⟨t, ht, hres, hflag, hpc, hframe⟩ := exec_writeFlagThenResult hexec hr hf
  exact ⟨t, ht, hres, hflag hx, hpc, hframe⟩

/-- The carry as the condition of R116. -/
theorem carryFlag_toNat_eq_ite (a b : Byte) : (carryFlag a b).toNat = if a.toNat + b.toNat > 255 then 1 else 0 := by
  simp [carryFlag]

/-- No borrow as the condition of R117 and R119: a borrow only when `a < b`. -/
theorem noBorrowFlag_toNat_eq_ite (a b : Byte) : (noBorrowFlag a b).toNat = if a.toNat < b.toNat then 0 else 1 := by
  simp only [noBorrowFlag, flagByte_toNat, Bool.not_eq_true', decide_eq_false_iff_not, ite_not]

/-- The byte difference is the true difference modulo 256, below zero too. -/
theorem sub_toNat_int (a b : Byte) : ((a - b).toNat : Int) = (a.toNat - b.toNat : Int) % 256 := by
  have := b.isLt
  rw [sub_toNat]
  omega

/-- A subtraction `a - b` into `V[x]`, whichever operand is `V[x]` (R117, R119). -/
theorem exec_writeDifference {i : Instr} {s : State} {x : Reg} {a b : Byte} (hx : x ≠ regF)
    (hexec : exec i s = .next (advance (writeFlagThenResult s x (noBorrowFlag a b) (a - b)))) :
    ∃ t, exec i s = .next t ∧ ((t.vreg x).toNat : Int) = (a.toNat - b.toNat : Int) % 256 ∧
      (t.vreg regF).toNat = (if a.toNat < b.toNat then 0 else 1) ∧ t.pc = s.pc + 2 ∧
      OnlyListed [.vreg x, .vreg regF, .pc] s t := by
  obtain ⟨t, ht, hres, hrest⟩ := exec_writeFlagThenResult_of_ne hx hexec rfl (noBorrowFlag_toNat_eq_ite a b)
  exact ⟨t, ht, by rw [hres, sub_toNat_int], hrest⟩

/-- Settles O23: one flag and one result, read as a true sum or difference. -/
theorem addAndSubtractWriteResultAndFlag : Obligations.AddAndSubtractWriteResultAndFlag := fun _ _ _ hx _ =>
  ⟨exec_writeFlagThenResult_of_ne hx rfl (BitVec.toNat_add _ _) (carryFlag_toNat_eq_ite _ _),
    exec_writeDifference hx rfl, exec_writeDifference hx rfl⟩

theorem ushiftRight_one_toNat (a : Byte) : (a >>> 1).toNat = a.toNat / 2 := by
  rw [BitVec.toNat_ushiftRight, Nat.shiftRight_eq_div_pow, Nat.pow_one]

theorem shiftLeft_one_toNat (a : Byte) : (a <<< 1).toNat = a.toNat * 2 % 256 := by
  rw [BitVec.toNat_shiftLeft, Nat.shiftLeft_eq, Nat.pow_one]

/-- Settles O24: one flag and one result, both from the source that the quirk selects. -/
theorem shiftsByOneWriteResultAndLostBit : Obligations.ShiftsByOneWriteResultAndLostBit := by
  intro s x y hx _ src
  have hsrc : (shiftSource s x y).toNat = src := shiftSource_toNat s x y
  exact ⟨exec_writeFlagThenResult_of_ne hx rfl (hsrc ▸ ushiftRight_one_toNat _) (hsrc ▸ lowBitFlag_toNat _),
    exec_writeFlagThenResult_of_ne hx rfl (hsrc ▸ shiftLeft_one_toNat _) (hsrc ▸ highBitFlag_toNat _)⟩

/-! ## Random (R121) -/

/-- A mask leaves no bit outside it. -/
theorem and_and_not_self (kk r : Byte) : kk &&& r &&& ~~~kk = 0 := by
  rw [BitVec.and_comm kk r, BitVec.and_assoc, BitVec.and_not_self]
  exact BitVec.and_zero

/-- A draw changes only the count of draws. -/
theorem onlyListed_drawByte (s : State) : OnlyListed [.draws] s (drawByte s).2 := by
  apply onlyChanges_of <;> simp

/-- `Cxkk` writes the masked draw to `V[x]`. -/
theorem exec_rndVxKk (s : State) (x : Reg) (kk : Byte) :
    ∃ t, exec (.rndVxKk x kk) s = .next t ∧ t.vreg x = kk &&& (drawByte s).1 ∧ t.pc = s.pc + 2 ∧ t.draws = s.draws + 1 ∧
      OnlyListed [.vreg x, .pc, .draws] s t := by
  have hdraw := (onlyListed_drawByte s).onlyChanges (w := (· ∈ [.vreg x, .pc, .draws])) (by simp)
  exact ⟨_, rfl, by simp, rfl, rfl, (hdraw.then_setVreg (by simp) _).then_advance (by simp)⟩

/-- Settles O26: the byte is the one drawn (D12, log 8). -/
theorem randomIsMasked : Obligations.RandomIsMasked := by
  intro s x kk
  obtain ⟨t, hexec, hvalue, hrest⟩ := exec_rndVxKk s x kk
  refine ⟨t, (drawByte s).1, hexec, hvalue, ?_, fun hkk => ?_, hrest⟩
  · rw [hvalue, and_and_not_self]
  · rw [hvalue, hkk]
    exact BitVec.zero_and

end Sys2Proof.Machine
end

section
/-! SUPPORT. The instructions that write `I` and touch no memory (R130 to R132). -/

namespace Sys2Proof.Machine

/-- An instruction that writes `a` to `I` and advances has no other effect. -/
theorem exec_setIndex {i : Instr} {s : State} {a : Word} {n : Nat} (hexec : exec i s = .next (advance { s with i := a }))
    (ha : a.toNat = n) : ∃ t, exec i s = .next t ∧ t.i.toNat = n ∧ t.pc = s.pc + 2 ∧ OnlyListed [.index, .pc] s t :=
  ⟨_, hexec, ha, rfl, ((OnlyChanges.refl _ s).then_setIndex (.inl (by simp))).then_advance (by simp)⟩

/-- Five times a byte is at most 1275, so the product in 16 bits is the true one. -/
theorem byteOperand_mul_five_toNat (b : Byte) : (byteOperand b * 5).toNat = b.toNat * 5 := by
  have hbyte := b.isLt
  have hproduct : (byteOperand b * 5).toNat = b.toNat * 5 % 65536 := by rw [BitVec.toNat_mul, byteOperand_toNat]; rfl
  omega

/-- Settles O27: both operands fit in the 16 bits of `I`, the glyph address for every byte. -/
theorem indexLoads : Obligations.IndexLoads := fun s nnn x =>
  ⟨exec_setIndex rfl (addrOperand_toNat nnn), exec_setIndex rfl (byteOperand_mul_five_toNat (s.vreg x))⟩

/-- Settles O28: the sum of two words is the true sum modulo 65536, and the frame leaves VF out (D6, log 12). -/
theorem addToIndexWrapsWithoutFlag : Obligations.AddToIndexWrapsWithoutFlag := fun s x =>
  exec_setIndex rfl (by rw [BitVec.toNat_add, byteOperand_toNat])

end Sys2Proof.Machine
end

section
/-! SUPPORT. The display (R150 to R154): which cells a draw flips, the two draws that undo each other, the clear, and what the
renderer reads. -/

namespace Sys2Proof.Machine

/-! ## The cells of a sprite (R151 to R153) -/

/-- The pixels of a sprite that was read from memory: bit `7 - c` of its byte `r` stands at row offset `r`, column offset `c`. -/
theorem mem_spritePixels_memRead {m : Memory} {a n : Nat} {sprite : List Byte} (hr : memRead m a n = some sprite)
    (policy : EdgePolicy) (cx cy : Nat) (p : Fin 32 × Fin 64) :
    p ∈ spritePixels policy cx cy sprite ↔
      ∃ r c, r < n ∧ c < 8 ∧ (m.byte (a + r)).getLsbD (7 - c) = true ∧ pixelTarget policy (cx + c) (cy + r) = some p := by
  obtain ⟨-, rfl, hbytes⟩ := memRead_eq_some hr
  simp only [mem_spritePixels, mem_rowPixels]
  constructor
  · rintro ⟨r, hlt, c, hc, hbit, htarget⟩
    exact ⟨r, c, hlt, hc, hbytes r hlt ▸ hbit, htarget⟩
  · rintro ⟨r, c, hlt, hc, hbit, htarget⟩
    exact ⟨r, hlt, c, hc, (hbytes r hlt).symm ▸ hbit, htarget⟩

/-- From an on-screen origin a cell names the offsets of the pixel on it, so the listed cells are those `spriteCovers` describes.
Under wrap this needs that no sprite has more than 32 rows. -/
theorem mem_spritePixels_iff_spriteCovers {m : Memory} {a n : Nat} {sprite : List Byte} (hr : memRead m a n = some sprite)
    (policy : EdgePolicy) {cx cy : Nat} (hcx : cx ≤ 63) (hcy : cy ≤ 31) (hn : n ≤ 32) (p : Fin 32 × Fin 64) :
    p ∈ spritePixels policy cx cy sprite ↔ spriteCovers policy m a n cx cy p = true := by
  rw [mem_spritePixels_memRead hr]
  simp only [pixelTarget_eq_some]
  cases policy with
  | clip =>
    simp only [spriteCovers, Bool.and_eq_true, decide_eq_true_eq]
    constructor
    · rintro ⟨r, c, hlt, hc, hbit, hrow, hcol⟩
      rw [hrow, hcol, Nat.add_sub_cancel_left, Nat.add_sub_cancel_left]
      exact ⟨by omega, hbit⟩
    · rintro ⟨hin, hbit⟩
      exact ⟨_, _, by omega, by omega, hbit, by omega, by omega⟩
  | wrap =>
    simp only [spriteCovers, Bool.and_eq_true, decide_eq_true_eq]
    constructor
    · rintro ⟨r, c, hlt, hc, hbit, hrow, hcol⟩
      have hrowOffset : (p.1.val + 32 - cy) % 32 = r := by omega
      have hcolOffset : (p.2.val + 64 - cx) % 64 = c := by omega
      rw [hrowOffset, hcolOffset]
      exact ⟨⟨hlt, hc⟩, hbit⟩
    · rintro ⟨⟨hlt, hc⟩, hbit⟩
      exact ⟨_, _, hlt, hc, hbit, by omega, by omega⟩

/-! ## Drawing a sprite that was read (R151) -/

/-- VF after a draw tells whether some listed cell was lit, whatever registers held the origin (D7). -/
theorem vreg_regF_drawSprite (s : State) (cx cy : Byte) (sprite : List Byte) : (drawSprite s cx cy sprite).vreg regF =
    collisionFlag ((spritePixels s.params.edgePolicy cx.toNat cy.toNat sprite).any (Display.cell s.disp)) :=
  Vector.getElem_set_self _

section
variable {s : State} {a n : Nat} {cx cy : Byte} {sprite : List Byte} (hr : memRead s.mem a n = some sprite)
  (hcx : cx.toNat ≤ 63) (hcy : cy.toNat ≤ 31) (hn : n ≤ 32)
include hr hcx hcy hn

theorem cell_drawSprite (p : Fin 32 × Fin 64) : Display.cell (drawSprite s cx cy sprite).disp p =
    (Display.cell s.disp p ^^ spriteCovers s.params.edgePolicy s.mem a n cx.toNat cy.toNat p) := by
  rw [drawSprite_disp, cell_toggleAll]
  simp only [mem_spritePixels_iff_spriteCovers hr _ hcx hcy hn, Bool.decide_eq_true]

theorem vreg_regF_drawSprite_of_hit
    (hhit : ∃ p, spriteCovers s.params.edgePolicy s.mem a n cx.toNat cy.toNat p = true ∧ Display.cell s.disp p = true) :
    (drawSprite s cx cy sprite).vreg regF = 1 := by
  obtain ⟨p, hcovers, hlit⟩ := hhit
  have hmem := (mem_spritePixels_iff_spriteCovers hr s.params.edgePolicy hcx hcy hn p).2 hcovers
  rw [vreg_regF_drawSprite, List.any_eq_true.2 ⟨p, hmem, hlit⟩]
  rfl

theorem vreg_regF_drawSprite_of_no_hit
    (hmiss : ∀ p, spriteCovers s.params.edgePolicy s.mem a n cx.toNat cy.toNat p = true → Display.cell s.disp p = false) :
    (drawSprite s cx cy sprite).vreg regF = 0 := by
  have hnone : (spritePixels s.params.edgePolicy cx.toNat cy.toNat sprite).any (Display.cell s.disp) = false :=
    List.any_eq_false.2 fun p hp =>
      Bool.eq_false_iff.1 (hmiss p ((mem_spritePixels_iff_spriteCovers hr _ hcx hcy hn p).1 hp))
  rw [vreg_regF_drawSprite, hnone]
  rfl

end

/-! ## `Dxyn` -/

/-- With its origin on-screen, `Dxyn` faults exactly on a byte above `0xFFF` (R151, R184). -/
theorem faultOf_drwVxVyN_eq_none_iff {s : State} {x y : Reg} (n : Fin 16) (hx : (s.vreg x).toNat ≤ 63)
    (hy : (s.vreg y).toNat ≤ 31) : faultOf (.drwVxVyN x y n) s = none ↔ n.val = 0 ∨ s.i.toNat + n.val - 1 ≤ 0xFFF := by
  simp only [faultOf, ite_eq_right_iff, reduceCtorEq, imp_false]
  omega

theorem exec_drwVxVyN_offScreen {s : State} {x y : Reg} (n : Fin 16) (hoff : (s.vreg x).toNat > 63 ∨ (s.vreg y).toNat > 31) :
    exec (.drwVxVyN x y n) s = .next (advance (s.setVreg regF 0)) := by
  rw [exec, execDrwVxVyN, if_pos ((originOffScreen_iff _ _).2 hoff)]

/-- `Dxyn` with its origin on-screen and its bytes inside memory. -/
theorem exec_drwVxVyN_onScreen {s : State} {x y : Reg} {n : Fin 16} (hx : (s.vreg x).toNat ≤ 63) (hy : (s.vreg y).toNat ≤ 31)
    (hin : n.val = 0 ∨ s.i.toNat + n.val - 1 ≤ 0xFFF) : ∃ sprite, memRead s.mem s.i.toNat n.val = some sprite ∧
      exec (.drwVxVyN x y n) s = .next (advance (drawSprite s (s.vreg x) (s.vreg y) sprite)) := by
  have hon : ¬ originOffScreen (s.vreg x) (s.vreg y) = true := by rw [originOffScreen_iff]; omega
  cases hr : memRead s.mem s.i.toNat n.val with
  | none => have := (memRead_eq_none _ _ _).1 hr; omega
  | some sprite => exact ⟨sprite, rfl, by rw [exec, execDrwVxVyN, if_neg hon, dataAddress_eq, hr]⟩

/-- Settles O36: the cells drawn are the covered ones; with a byte above `0xFFF` the fault condition holds. -/
theorem drawFlipsExactlyTheCoveredCells : Obligations.DrawFlipsExactlyTheCoveredCells := by
  refine fun s x y n hx hy => ⟨fun hin => ?_, fun hout => exec_of_faultOf (if_pos ⟨by omega, hout⟩)⟩
  obtain ⟨sprite, hr, hexec⟩ := exec_drwVxVyN_onScreen hx hy hin
  have hn : n.val ≤ 32 := by omega
  refine ⟨_, hexec, cell_drawSprite hr hx hy hn, vreg_regF_drawSprite_of_hit hr hx hy hn,
    vreg_regF_drawSprite_of_no_hit hr hx hy hn, rfl, rfl, ?_⟩
  exact ((drawSprite_frame s _ _ sprite).mono fun c => Or.inr).then_advance (Or.inl rfl)

/-! ## Drawing twice (R151 (g), log 30) -/

/-- The cells `Dxyn` covers from `s`. -/
def drawCovers (s : State) (x y : Reg) (n : Fin 16) : Fin 32 × Fin 64 → Bool :=
  spriteCovers s.params.edgePolicy s.mem s.i.toNat n.val (s.vreg x).toNat (s.vreg y).toNat

/-- A sprite is known by its bytes in memory, however memory lists them. -/
theorem spriteCovers_congr {m m' : Memory} (hbyte : ∀ a, m'.byte a = m.byte a) (policy : EdgePolicy) (a n cx cy : Nat) :
    spriteCovers policy m' a n cx cy = spriteCovers policy m a n cx cy := by
  funext p
  cases policy <;> simp only [spriteCovers, hbyte]

/-- A draw moves neither the sprite nor, if neither is VF, the registers of its origin: a second draw covers the same cells. -/
theorem drawCovers_of_draw {s t : State} {x y : Reg} (n : Fin 16) (hxt : t.vreg x = s.vreg x) (hyt : t.vreg y = s.vreg y)
    (hframe : OnlyChanges (fun c => c = .pc ∨ c = .dirty ∨ c = .vreg regF ∨ ∃ p, c = .cell p) s t) :
    drawCovers t x y n = drawCovers s x y n := by
  have hmem (a : Nat) : t.mem.byte a = s.mem.byte a := hframe (.memByte a) (by simp)
  have hi : t.i = s.i := hframe .index (by simp)
  have hparams : t.params = s.params := hframe .params (by simp)
  rw [drawCovers, hxt, hyt, hi, hparams]
  exact spriteCovers_congr hmem _ _ _ _ _

/-- What an on-screen `Dxyn` without a fault did, from its answer. -/
theorem exec_drwVxVyN_effect {s t : State} {x y : Reg} {n : Fin 16} (hx : (s.vreg x).toNat ≤ 63) (hy : (s.vreg y).toNat ≤ 31)
    (hin : n.val = 0 ∨ s.i.toNat + n.val - 1 ≤ 0xFFF) (hexec : exec (.drwVxVyN x y n) s = .next t) :
    (∀ p, Display.cell t.disp p = (Display.cell s.disp p ^^ drawCovers s x y n p)) ∧
    ((∃ p, drawCovers s x y n p = true ∧ Display.cell s.disp p = true) → t.vreg regF = 1) ∧
    ((∀ p, drawCovers s x y n p = true → Display.cell s.disp p = false) → t.vreg regF = 0) ∧
    OnlyChanges (fun c => c = .pc ∨ c = .dirty ∨ c = .vreg regF ∨ ∃ p, c = .cell p) s t := by
  obtain ⟨u, hu, hcell, hhit, hmiss, -, -, hframe⟩ := (drawFlipsExactlyTheCoveredCells s x y n hx hy).1 hin
  obtain rfl := Host.Outcome.next.inj (hu.symm.trans hexec)
  exact ⟨hcell, hhit, hmiss, hframe⟩

/-- Settles O37: both draws flip the same cells, so every cell flips twice or not at all. -/
theorem drawingTwiceRestoresTheGrid : Obligations.DrawingTwiceRestoresTheGrid := by
  intro s t u x y n hxF hyF hnone hx hy hfirst hsecond
  have hin := (faultOf_drwVxVyN_eq_none_iff n hx hy).1 hnone
  obtain ⟨hcell, -, hmiss, hframe⟩ := exec_drwVxVyN_effect hx hy hin hfirst
  have hxt : t.vreg x = s.vreg x := hframe (.vreg x) (by simp [hxF])
  have hyt : t.vreg y = s.vreg y := hframe (.vreg y) (by simp [hyF])
  have hi : t.i = s.i := hframe .index (by simp)
  have heffect := exec_drwVxVyN_effect (hxt ▸ hx) (hyt ▸ hy) (hi ▸ hin) hsecond
  rw [drawCovers_of_draw n hxt hyt hframe] at heffect
  obtain ⟨hcell', hhit', hmiss', -⟩ := heffect
  refine ⟨display_ext fun p => ?grid, fun ⟨p, hoff, hon⟩ => hhit' ⟨p, ?hit, hon⟩, fun hkept => hmiss' fun p hcovers => ?miss,
    fun hclear => hmiss fun p _ => hclear p⟩
  case grid => rw [hcell', hcell, Bool.xor_assoc, Bool.xor_self, Bool.xor_false]
  case hit => simpa [hcell, hoff] using hon
  case miss =>
    have hflip : Display.cell t.disp p = !Display.cell s.disp p := by rw [hcell, hcovers, Bool.xor_true]
    cases hlit : Display.cell t.disp p with
    | false => rfl
    | true => simp [hlit, hkept p hlit] at hflip

/-! ## Off-screen draws and the clear (R150, R151) -/

/-- Settles O35: such a draw is one write of VF. -/
theorem offScreenDrawOnlyClearsVf : Obligations.OffScreenDrawOnlyClearsVf := fun _ _ _ n hoff =>
  exec_setVreg (exec_drwVxVyN_offScreen n hoff)

/-- Settles O34: the clear is one write of the grid. -/
theorem clearTurnsEveryCellOff : Obligations.ClearTurnsEveryCellOff := fun s =>
  ⟨_, rfl, cell_clear, rfl, ((OnlyChanges.refl _ s).then_setDisp (by simp)).then_advance (by simp)⟩

/-! ## The renderer (R154) -/

/-- Row `r` of the frame is row `r` of the grid, column by column. -/
theorem getFrame_getElem? (s : State) (r : Fin 32) :
    (getFrame s)[r.val]? = some ((List.range 64).map (s.disp[r.val]).getLsbD) := by
  simp [getFrame]

/-- Settles O44: the frame is the grid cell by cell, and the other two read or write the one bit. -/
theorem rendererReadsTheGridAndClearsDirty : Obligations.RendererReadsTheGridAndClearsDirty := by
  refine fun s => ⟨⟨getFrame s, rfl, by simp [getFrame], fun p => ⟨_, getFrame_getElem? s p.1, by simp, ?_⟩⟩, rfl,
    _, rfl, rfl, clearDirty_frame s⟩
  simp [Display.cell]

end Sys2Proof.Machine
end

section
/-! SUPPORT. The keypad and the timers (R160 to R170): which key a completing poll reports, the key skips, the wait, the copies
between a timer and a register, and the two host events that read or write one component. -/

namespace Sys2Proof.Machine

/-! ## The key poll (R163, R164) -/

theorem keysDown_eq_nil_iff (s : State) : keysDown s = [] ↔ ∀ k : Fin 16, s.key[k.val] = false := by
  simp only [List.eq_nil_iff_forall_not_mem, mem_keysDown, not_exists, Bool.not_eq_true]
  exact ⟨fun hup k => hup k.val k.isLt, fun hup k hk => hup ⟨k, hk⟩⟩

/-- A poll with every key up changes nothing. -/
theorem pollKeypad_of_all_up {s : State} (x : Reg) (hup : ∀ k : Fin 16, s.key[k.val] = false) : pollKeypad x s = s := by
  rw [pollKeypad, (keysDown_eq_nil_iff s).2 hup]

/-- The default `KEY_SELECT` answers the least member of a set listed in rising order (R164, D9). -/
theorem keyChoice_le_of_least {s : State} (hleast : s.params.keySelect = .least) {first : Nat} {rest : List Nat}
    (hsorted : (first :: rest).Pairwise (· < ·)) {j : Nat} (hj : j ∈ first :: rest) : keyChoice s first rest ≤ j := by
  have hchoice : keyChoice s first rest = first := by rw [keyChoice, hleast]
  rw [hchoice]
  rcases List.mem_cons.1 hj with rfl | hrest
  · exact le_rfl
  · exact (List.rel_of_pairwise_cons hsorted hrest).le

/-- With a key down a poll reports a down key, the least one by default, and returns to `Running`. -/
theorem pollKeypad_reports_down_key {s : State} (x : Reg) {k : Fin 16} (hk : s.key[k.val] = true) :
    ∃ r : Fin 16, s.key[r.val] = true ∧ ((pollKeypad x s).vreg x).toNat = r.val ∧ (pollKeypad x s).run = .running ∧
      (s.params.keySelect = .least → ∀ j : Fin 16, s.key[j.val] = true → r.val ≤ j.val) := by
  rcases pollKeypad_cases x s with ⟨hnone, -⟩ | ⟨first, rest, hdown, hpoll⟩
  · simp [(keysDown_eq_nil_iff s).1 hnone k] at hk
  · obtain ⟨hlt, hchosen⟩ := (mem_keysDown s _).1 (hdown ▸ keyChoice_mem s first rest)
    refine ⟨⟨keyChoice s first rest, hlt⟩, hchosen, ?_, by rw [hpoll], fun hleast j hj => ?_⟩
    · rw [hpoll, vreg_def, Vector.getElem_set_self, BitVec.toNat_ofNat]
      exact Nat.mod_eq_of_lt (by omega)
    · exact keyChoice_le_of_least hleast (hdown ▸ keysDown_sorted s) (hdown ▸ (mem_keysDown s j.val).2 ⟨j.isLt, hj⟩)

/-- Settles O12: the `STEP` is one poll, which does nothing or reports a down key. -/
theorem keyPollCompletesOnAnyKeyDown : Obligations.KeyPollCompletesOnAnyKeyDown := by
  refine fun s x hrun => ⟨fun hup => ?_, fun ⟨k, hk⟩ => ?_⟩
  · rw [step_of_awaitingKey hrun, pollKeypad_of_all_up x hup]
  · obtain ⟨r, hdown, hvalue, hrunning, -⟩ := pollKeypad_reports_down_key x hk
    exact ⟨_, r, step_of_awaitingKey hrun, hdown, hvalue, hrunning, pc_pollKeypad x hk,
      (pollKeypad_frame x s).onlyChanges (by simp)⟩

/-- Settles O13: the reported key is down, so it is the least one or the only one (D9, log 7). -/
theorem keySelectReportsTheLeastKeyByDefault : Obligations.KeySelectReportsTheLeastKeyByDefault := by
  intro s u x k hrun hstep hk
  obtain rfl := Host.Outcome.next.inj ((step_of_awaitingKey hrun).symm.trans hstep)
  obtain ⟨r, hdown, hvalue, -, hmin⟩ := pollKeypad_reports_down_key x hk
  refine ⟨fun hleast hlower => ?_, fun honly => ?_⟩
  · have hnotLower : ¬ r.val < k.val := fun hlt => by simp [hlower r hlt] at hdown
    exact hvalue.trans (Nat.le_antisymm (hmin hleast k hk) (Nat.not_lt.1 hnotLower))
  · have hr : r = k := by
      by_contra hne
      simp [honly r hne] at hdown
    rw [hvalue, hr]

/-! ## `SETKEY` (R170) -/

theorem key_setKey_same (k : Fin 16) (down : Bool) (s : State) : (setKey k down s).key[k.val] = down :=
  Vector.getElem_set_self k.isLt

theorem key_setKey_other {j k : Fin 16} (hj : j ≠ k) (down : Bool) (s : State) :
    (setKey k down s).key[j.val] = s.key[j.val] :=
  setKey_frame k down s (.key j) (by simpa using hj)

/-- Settles O43: the event is one write of the latch. -/
theorem setKeyWritesOneLatch : Obligations.SetKeyWritesOneLatch := fun s k down =>
  ⟨_, rfl, key_setKey_same k down s, setKey_frame k down s⟩

/-- Settles O51: after the `SETKEY` one key is down, and the poll reports that one under every `KEY_SELECT`. -/
theorem aKeyLiftsAHang : Obligations.AKeyLiftsAHang := by
  rintro s k ⟨⟨x, hrun⟩, hup⟩
  refine ⟨(keyPollCompletesOnAnyKeyDown s x hrun).1 hup, ?_⟩
  have hdown : (setKey k true s).key[k.val] = true := key_setKey_same k true s
  have honly : ∀ j : Fin 16, j ≠ k → (setKey k true s).key[j.val] = false := fun j hj =>
    (key_setKey_other hj true s).trans (hup j)
  obtain ⟨t, -, hstep, -, -, hrunning, -⟩ := (keyPollCompletesOnAnyKeyDown (setKey k true s) x hrun).2 ⟨k, hdown⟩
  refine ⟨t, hstep, hrunning, fun r hr => ?_⟩
  exact (keySelectReportsTheLeastKeyByDefault (setKey k true s) t r k hr hstep hdown).2 honly

/-! ## The keypad instructions (R160 to R162) -/

/-- Settles O38: each skip tests the level of key `V[x]`; above 15 its fault condition holds (D8, log 14). -/
theorem keySkipsTestTheKeyLevel : Obligations.KeySkipsTestTheKeyLevel := fun s _ =>
  ⟨fun k hk => ⟨exec_skipIf (exec_skpVx hk) rfl, exec_skipIf (exec_sknpVx hk) (by cases s.key[k.val] <;> rfl)⟩,
    fun habove => ⟨exec_of_faultOf (if_pos habove), exec_of_faultOf (if_pos habove)⟩⟩

/-- Settles O39: the instruction is one write of the run state, and its row of R36 is that alone. -/
theorem keyWaitOnlyEntersAwaitingKey : Obligations.KeyWaitOnlyEntersAwaitingKey := fun s x =>
  ⟨_, rfl, rfl, exec_frame_mono (i := .ldVxK x) rfl rfl fun c => by cases c <;> simp [mayWrite, writesVreg]⟩

/-! ## The timers (R165 to R167, R169) -/

/-- Settles O40: one copy each, between a timer and `V[x]`, within its row of R36. -/
theorem timerInstructionsCopy : Obligations.TimerInstructionsCopy := fun s x =>
  ⟨exec_setVreg rfl,
    ⟨_, rfl, rfl, rfl, exec_frame_mono (i := .ldDtVx x) rfl rfl fun c => by cases c <;> simp [mayWrite, writesVreg]⟩,
    ⟨_, rfl, rfl, rfl, exec_frame_mono (i := .ldStVx x) rfl rfl fun c => by cases c <;> simp [mayWrite, writesVreg]⟩⟩

/-- Settles O42: the bit is the comparison of `ST` with 0. -/
theorem soundIsActiveWhileStIsPositive : Obligations.SoundIsActiveWhileStIsPositive := fun s =>
  ⟨isSoundActive s, rfl, decide_eq_true_iff⟩

end Sys2Proof.Machine
end

section
/-! SUPPORT. The faults and what leaves them (R180 to R192): the fault an instruction enters or else how its run state ends, the fault
a `STEP` enters in the order fetch, decode, execute, the halted machine, and the `LOAD` that is too large. -/

namespace Sys2Proof.Machine

/-! ## An instruction without its fault (R180, R188) -/

/-- Only `Fx0A` changes the run state of an instruction that runs. -/
theorem exec_of_no_fault {i : Instr} {s : State} (hnone : faultOf i s = none) :
    ∃ t, exec i s = .next t ∧ ((∀ x, i ≠ .ldVxK x) → t.run = s.run) ∧ (∀ x, i = .ldVxK x → t.run = .awaitingKey x) := by
  rcases exec_cases i s with ⟨k, hk, -⟩ | ⟨-, t, hexec, hcompletes⟩
  · simp [hk] at hnone
  · refine ⟨t, hexec, fun hi => (run_of_completes hcompletes).resolve_left fun ⟨x, hx⟩ => hi x hx, ?_⟩
    rintro x rfl
    cases hexec
    rfl

/-- Settles O14: each instruction faults or runs, as its fault condition says. -/
theorem everyInstructionRunsUnlessItsFaultConditionHolds : Obligations.EveryInstructionRunsUnlessItsFaultConditionHolds :=
  fun _ _ => ⟨exec_of_no_fault, fun _ => exec_of_faultOf⟩

/-! ## A `STEP` that halts, and one that does not (R188, R189) -/

theorem safe_of_running {s : State} (hrun : s.run = .running) : s.Safe := by simp [State.Safe, hrun]

theorem safe_of_awaitingKey {s : State} {x : Reg} (hrun : s.run = .awaitingKey x) : s.Safe := by simp [State.Safe, hrun]

/-- An instruction that runs from a state no fault has stopped leaves one. -/
theorem exec_safe {i : Instr} {s : State} (hs : s.Safe) (hnone : faultOf i s = none) : ∃ t, exec i s = .next t ∧ t.Safe := by
  obtain ⟨t, hexec, hkeeps, hwaits⟩ := exec_of_no_fault hnone
  refine ⟨t, hexec, ?_⟩
  by_cases hi : ∃ x, i = .ldVxK x
  · obtain ⟨x, hx⟩ := hi
    exact safe_of_awaitingKey (hwaits x hx)
  · intro f
    rw [hkeeps (not_exists.1 hi)]
    exact hs f

/-- A poll does not halt (R163). -/
theorem pollKeypad_safe {s : State} (x : Reg) (hs : s.Safe) : (pollKeypad x s).Safe := by
  rcases pollKeypad_cases x s with ⟨-, hpoll⟩ | ⟨_, _, -, hpoll⟩ <;> rw [hpoll]
  · exact hs
  · exact safe_of_running rfl

theorem step_of_decode_error {s : State} {w : Word} {e : DecodeReject} (hrun : s.run = .running) (hw : fetchWord s = some w)
    (he : decode w = .error e) : step s = .next (raise s .decodeError (some w)) := by
  simp [step, hrun, hw, he, raiseDecodeError]

/-- A `STEP` in `Running` raises the pending fault with the fetched word, or completes without one. -/
theorem step_of_running {s : State} (hrun : s.run = .running) :
    (∃ k, pendingFault s = some k ∧ step s = .next (raise s k (fetchWord s))) ∨
    (pendingFault s = none ∧ ∃ t, step s = .next t ∧ t.Safe) := by
  cases hw : fetchWord s with
  | none => exact .inl ⟨.fetchFault, by simp [pendingFault, hw], step_of_no_fetch hrun hw⟩
  | some w =>
    cases hd : decode w with
    | error e => exact .inl ⟨.decodeError, by simp [pendingFault, hw, hd], step_of_decode_error hrun hw hd⟩
    | ok i =>
      rw [pendingFault_of_decode hw hd, step_of_decode hrun hw hd, ← encode_of_decode hd]
      cases hk : faultOf i s with
      | some k => exact .inl ⟨k, rfl, exec_of_faultOf hk⟩
      | none => exact .inr ⟨rfl, exec_safe (safe_of_running hrun) hk⟩

/-- From a state no fault has stopped, a `STEP` halts only by raising the pending fault: a poll raises none. -/
theorem step_of_safe {s : State} (hs : s.Safe) :
    (∃ k, pendingFault s = some k ∧ step s = .next (raise s k (fetchWord s))) ∨ ∃ t, step s = .next t ∧ t.Safe := by
  cases hrun : s.run with
  | running => exact (step_of_running hrun).imp_right And.right
  | awaitingKey x => exact .inr ⟨_, step_of_awaitingKey hrun, pollKeypad_safe x hs⟩
  | halted f => exact absurd hrun (hs f)

/-- No instruction raises the fault of the fetch. -/
theorem faultOf_ne_fetchFault (i : Instr) (s : State) : faultOf i s ≠ some .fetchFault := by
  cases i <;> simp [faultOf]

/-- `FetchFault` is pending exactly when the fetch answers no word (R185). -/
theorem pendingFault_eq_fetchFault_iff (s : State) : pendingFault s = some .fetchFault ↔ fetchWord s = none := by
  cases hw : fetchWord s with
  | none => simp [pendingFault, hw]
  | some w =>
    cases hd : decode w with
    | error e => simp [pendingFault, hw, hd]
    | ok i => simp [pendingFault_of_decode hw hd, faultOf_ne_fetchFault]

/-- A word that matches no row decodes to nothing (R181). -/
theorem decode_error_of_no_row {w : Word} (hrow : ∀ r ∈ opcodeMap, w &&& r.mask ≠ r.pattern) : ∃ e, decode w = .error e := by
  cases hd : decode w with
  | error e => exact ⟨e, rfl⟩
  | ok i =>
    obtain ⟨r, hmem, hselects⟩ := List.any_eq_true.1 ((wellFormed_iff_decodes w).2 ⟨i, hd⟩)
    exact absurd (beq_iff_eq.1 hselects) (hrow r hmem)

/-- Settles O8: the decoder rejects the word. -/
theorem unrecognisedWordRaisesDecodeError : Obligations.UnrecognisedWordRaisesDecodeError := by
  intro s w hrun hw hrow
  obtain ⟨e, he⟩ := decode_error_of_no_row hrow
  exact step_of_decode_error hrun hw he

/-- Settles O9: a `STEP` in `Running` does one of two things, told apart by the pending fault. -/
theorem stepRaisesThePendingFaultOrCompletes : Obligations.StepRaisesThePendingFaultOrCompletes := by
  intro s hrun
  rcases step_of_running hrun with ⟨k, hk, hstep⟩ | ⟨hnone, hsafe⟩
  · refine ⟨fun k' hk' => ?_, fun hnone => by simp [hk] at hnone⟩
    obtain rfl := Option.some.inj (hk.symm.trans hk')
    exact hstep
  · exact ⟨fun k hk => by simp [hnone] at hk, fun _ => hsafe⟩

/-- Settles O10: the one way to halt is to raise the pending fault with the fetched word. -/
theorem faultEntryChangesOnlyTheRunState : Obligations.FaultEntryChangesOnlyTheRunState := by
  intro s t f hs hstep hhalted
  rcases step_of_safe hs with ⟨k, hk, hraise⟩ | ⟨u, hu, hsafe⟩
  · obtain rfl := Host.Outcome.next.inj (hraise.symm.trans hstep)
    cases hhalted
    refine ⟨rfl, rfl, rfl, ?_⟩
    rw [← pendingFault_eq_fetchFault_iff, hk, Option.some_inj]
  · obtain rfl := Host.Outcome.next.inj (hu.symm.trans hstep)
    exact absurd hhalted (hsafe f)

/-! ## `LOAD` of too many bytes, and the halted machine (R187, R191, R192) -/

theorem loadInto_of_too_large (mem : Memory) (params : Params) (draws : Nat) {bytes : List Byte} (q : Quirks)
    (hlong : bytes.length > Config.progMax) : loadInto mem params draws bytes q = none := if_pos hlong

theorem event_load_of_too_large (s : State) {bytes : List Byte} (q : Quirks) (hlong : bytes.length > Config.progMax) :
    State.event (.load bytes q) s = .next (s, .romTooLarge) := by
  simp only [State.event, load, loadInto_of_too_large _ _ _ q hlong]

theorem System.event_load_of_too_large (mem : Memory) (params : Params) {bytes : List Byte} (q : Quirks)
    (hlong : bytes.length > Config.progMax) :
    System.event (.load bytes q) (.constructed mem params) = .next (.constructed mem params, .romTooLarge) := by
  simp only [System.event, loadInto_of_too_large _ _ _ q hlong]

/-- Settles O47: the length decides, with `0xE00` on the side that loads. -/
theorem tooLargeLoadChangesNothing : Obligations.TooLargeLoadChangesNothing := fun s _ q =>
  ⟨fun hlong => ⟨event_load_of_too_large s q hlong, fun mem params => System.event_load_of_too_large mem params q hlong⟩,
    fun hlen => ⟨_, event_load s q (Nat.le_of_eq hlen)⟩⟩

theorem step_of_halted {s : State} {f : FaultRecord} (hrun : s.run = .halted f) : step s = .next s := by
  simp [step, hrun, haltedStep]

/-- Settles O11: `STEP` is the identity, a `LOAD` is too large or runs the machine, and no other event writes the run state. -/
theorem onlyLoadLeavesHalted : Obligations.OnlyLoadLeavesHalted := by
  intro s f hrun
  refine ⟨step_of_halted hrun, fun e t r hevent => ?_⟩
  cases e with
  | step =>
    simp only [State.event, step_of_halted hrun] at hevent
    cases hevent
    exact .inl hrun
  | load bytes q =>
    rcases Nat.lt_or_ge Config.progMax bytes.length with hlong | hlen
    · cases (event_load_of_too_large s q hlong).symm.trans hevent
      exact .inl hrun
    · cases (event_load s q hlen).symm.trans hevent
      exact .inr ⟨bytes, q, rfl, hlen, rfl, rfl⟩
  | tick | setKey k down | getFrame | isDirty | clearDirty | isSoundActive =>
    cases hevent
    exact .inl hrun

end Sys2Proof.Machine
end

section
/-! SUPPORT. The first fetch after `LOAD` (R211, R212). -/

namespace Sys2Proof.Machine

/-- A `LOAD` that succeeds leaves one state, the program in memory at `0x200`. -/
theorem load_eq_some {bytes : List Byte} {q : Quirks} {s t : State} (h : load bytes q s = some t) :
    t = State.afterLoad (s.mem.setBytes Config.progBase bytes) q s.params s.draws := by
  rcases loadInto_cases s.mem s.params s.draws bytes q with ⟨-, hnone⟩ | ⟨-, hsome⟩
  · cases hnone.symm.trans h
  · exact Option.some.inj (h.symm.trans hsome)

theorem fetchWord_afterLoad (mem : Memory) (q : Quirks) (params : Params) (draws : Nat) :
    fetchWord (State.afterLoad mem q params draws) =
      some (joinBytes (mem.byte Config.progBase) (mem.byte (Config.progBase + 1))) :=
  if_pos (by decide : fetchable 0x200 = true)

/-- Settles O48: the fetch reads at `0x200` the two bytes the `LOAD` stored first. -/
theorem firstFetchAfterLoadIsTheFirstWord : Obligations.FirstFetchAfterLoadIsTheFirstWord := by
  intro s t b0 b1 rest q hload
  obtain rfl := load_eq_some hload
  have hhigh : (s.mem.setBytes Config.progBase (b0 :: b1 :: rest)).byte Config.progBase = b0 :=
    byte_setBytes_inside s.mem Config.progBase 0 (b0 :: b1 :: rest) (by simp)
  have hlow : (s.mem.setBytes Config.progBase (b0 :: b1 :: rest)).byte (Config.progBase + 1) = b1 :=
    byte_setBytes_inside s.mem Config.progBase 1 (b0 :: b1 :: rest) (by simp)
  exact ⟨rfl, _, fetchWord_afterLoad _ _ _ _, by rw [joinBytes_toNat, hhigh, hlow]⟩

end Sys2Proof.Machine
end
